-- ==== Sys2Proof/Word.lean ====
section
/-! DEFINITION. The bit-vector types of the CORE: bytes, words, addresses and nibbles (00_scope.md R6, 30_encoding.md R81). -/

namespace Sys2Proof

/-- An 8-bit value: a general register, a memory byte, the field `kk`. Always unsigned (00_scope.md R6). -/
abbrev Byte := BitVec 8

/-- A 16-bit value: an instruction word, `pc`, `sp`, `I`. -/
abbrev Word := BitVec 16

/-- The 12-bit field `addr` of an instruction word (30_encoding.md R81). -/
abbrev Addr := BitVec 12

/-- A 4-bit field of an instruction word: `op`, `x`, `y` or `n` (30_encoding.md R81). A register index is one, so it is
always in 0..15 and the register file cannot be indexed out of range (10_state.md R21). -/
abbrev Nibble := BitVec 4

end Sys2Proof
end

