-- ==== Sys2Proof/Config.lean ====
section
/-! DEFINITION. The parameters of the CORE (00_scope.md R5), fixed for the machine, and its one free value. -/

namespace Sys2Proof.Config

/-- `MEM_CAPACITY`, bytes of memory (R5, R30, R50). -/
def memCapacity : Nat := 4096

/-- `INSTR_BYTES`, the width of every instruction in bytes (R5, R80, R90). -/
def instrBytes : Nat := 2

/-- `FONT_BASE`, the first address of the font (R5, R50). -/
def fontBase : Nat := 0

/-- `GLYPH_SIZE`, bytes per glyph (R5, R31). -/
def glyphSize : Nat := 5

/-- `FONT_SIZE`, bytes of font: addresses 0..79 are read-only (R5, R50, R58). -/
def fontSize : Nat := 80

/-- `PROGRAM_BASE`, where the image is loaded and `pc` starts (R5; the spec's decision D4, log 4). -/
def programBase : Nat := 0x200

/-- `PROGRAM_MAX`, the largest image, `MEM_CAPACITY - PROGRAM_BASE` (R5, R210). -/
def programMax : Nat := 3584

/-- `STACK_BASE`, the lowest byte of the call stack (R5, R26; D7, log 4). -/
def stackBase : Nat := 0xFE0

/-- `STACK_TOP`, one past the last byte of the call stack (R5, R26; D7, log 4). -/
def stackTop : Nat := 0x1000

/-- The FREE VALUE behind `RND`: the byte the random source gives at its `k`-th draw, before it is brought into `[0, kk]`.
The spec constrains nothing but the range (R32, R140, U1); it has no body, so no proof can see a value (log 2). -/
opaque freeDraw : Nat → Byte

end Sys2Proof.Config
end

