-- ==== Sys2Proof/Syntax.lean ====
section
/-! DEFINITION. The abstract syntax of the CORE: one constructor per row of spec/opcode_table.json (30_encoding.md R84). -/

namespace Sys2Proof

/-- The 30 instructions, in the table's order. `x` and `y` are register indices, `kk` an immediate byte, `addr` an
immediate address and `n` a sprite height (30_encoding.md R81, R83). -/
inductive Instr where
  /-- `CLS`, 00E0 (45_display.md R160). -/
  | cls
  /-- `RET`, 00EE (41_jumps_calls.md R113). -/
  | ret
  /-- `JMP addr`, 1nnn (41_jumps_calls.md R110). -/
  | jmp (addr : Addr)
  /-- `CALL addr`, 2nnn (41_jumps_calls.md R112). -/
  | call (addr : Addr)
  /-- `SKE Vx,kk`, 3xkk (44_skips.md R151). -/
  | skeImm (x : Nibble) (kk : Byte)
  /-- `SKNE Vx,kk`, 4xkk (44_skips.md R153). -/
  | skneImm (x : Nibble) (kk : Byte)
  /-- `SKE Vx,Vy`, 5xy0 (44_skips.md R152). -/
  | skeReg (x y : Nibble)
  /-- `MOV Vx,kk`, 6xkk (42_moves.md R120). -/
  | movImm (x : Nibble) (kk : Byte)
  /-- `ADD Vx,kk`, 7xkk (43_alu.md R130). -/
  | addImm (x : Nibble) (kk : Byte)
  /-- `MOV Vx,Vy`, 8xy0 (42_moves.md R121). -/
  | movReg (x y : Nibble)
  /-- `OR Vx,Vy`, 8xy1 (43_alu.md R135). -/
  | orReg (x y : Nibble)
  /-- `AND Vx,Vy`, 8xy2 (43_alu.md R136). -/
  | andReg (x y : Nibble)
  /-- `XOR Vx,Vy`, 8xy3 (43_alu.md R137). -/
  | xorReg (x y : Nibble)
  /-- `ADD Vx,Vy`, 8xy4 (43_alu.md R131). -/
  | addReg (x y : Nibble)
  /-- `SUB Vx,Vy`, 8xy5 (43_alu.md R133). -/
  | subReg (x y : Nibble)
  /-- `SHR Vx`, 8x-6 (43_alu.md R138); nibble 2 is ignored and so is no operand (30_encoding.md R87). -/
  | shr (x : Nibble)
  /-- `RSUB Vx,Vy`, 8xy7 (43_alu.md R134). -/
  | rsubReg (x y : Nibble)
  /-- `SHL Vx`, 8x-E (43_alu.md R139); nibble 2 is ignored (30_encoding.md R87). -/
  | shl (x : Nibble)
  /-- `SKNE Vx,Vy`, 9xy0 (44_skips.md R154). -/
  | skneReg (x y : Nibble)
  /-- `MOV I,addr`, Annn (42_moves.md R122). -/
  | movI (addr : Addr)
  /-- `JMP V0,addr`, Bnnn (41_jumps_calls.md R111). -/
  | jmpV0 (addr : Addr)
  /-- `RND Vx,kk`, Cxkk (43_alu.md R140). -/
  | rnd (x : Nibble) (kk : Byte)
  /-- `DRW Vx,Vy,n`, Dxyn (45_display.md R161). -/
  | drw (x y n : Nibble)
  /-- `MOV Vx,DT`, Fx07 (42_moves.md R124). -/
  | movFromDT (x : Nibble)
  /-- `MOV DT,Vx`, Fx15 (42_moves.md R123). -/
  | movToDT (x : Nibble)
  /-- `ADD I,Vx`, Fx1E (43_alu.md R132). -/
  | addI (x : Nibble)
  /-- `FONT Vx`, Fx29 (46_memory_ops.md R173). -/
  | font (x : Nibble)
  /-- `BCD Vx`, Fx33 (46_memory_ops.md R170). -/
  | bcd (x : Nibble)
  /-- `STR [I],Vx`, Fx55 (46_memory_ops.md R172). -/
  | str (x : Nibble)
  /-- `LD Vx,[I]`, Fx65 (46_memory_ops.md R171). -/
  | ld (x : Nibble)
deriving DecidableEq, Repr

end Sys2Proof
end

