-- ==== Sys2Proof/WellFormed.lean ====
section
/-! DEFINITION. What is well formed: an instruction, an instruction word (the opcode table of 30_encoding.md R84 as
data, kept apart from the decoder), and a program image. -/

namespace Sys2Proof

/-- An instruction of the syntax is always well formed. Its operands are bit vectors of exactly the width of their
fields, so an operand outside its field (a register index or a sprite height above 15) is no term of `Instr` at all,
which is how 10_state.md R21, 90_conflicts.md C6 and 93_implementation_defined.md U11 have it. -/
def Instr.wellFormed (_ : Instr) : Bool := true

/-- One row of the opcode map: a word `w` selects the row for which `w & mask = pattern` (30_encoding.md R84). -/
structure OpcodeRow where
  mnemonic : String
  mask : Word
  pattern : Word
deriving DecidableEq, Repr

/-- Rows 1 to 9 of 30_encoding.md R84. -/
def opcodeRowsLow : List OpcodeRow :=
  [⟨"CLS", 0xFFFF, 0x00E0⟩, ⟨"RET", 0xFFFF, 0x00EE⟩, ⟨"JMP_addr", 0xF000, 0x1000⟩, ⟨"CALL_addr", 0xF000, 0x2000⟩,
   ⟨"SKE_Vx_kk", 0xF000, 0x3000⟩, ⟨"SKNE_Vx_kk", 0xF000, 0x4000⟩, ⟨"SKE_Vx_Vy", 0xF00F, 0x5000⟩,
   ⟨"MOV_Vx_kk", 0xF000, 0x6000⟩, ⟨"ADD_Vx_kk", 0xF000, 0x7000⟩]

/-- Rows 10 to 18 of 30_encoding.md R84, the `8xy_` group. -/
def opcodeRowsAlu : List OpcodeRow :=
  [⟨"MOV_Vx_Vy", 0xF00F, 0x8000⟩, ⟨"OR_Vx_Vy", 0xF00F, 0x8001⟩, ⟨"AND_Vx_Vy", 0xF00F, 0x8002⟩,
   ⟨"XOR_Vx_Vy", 0xF00F, 0x8003⟩, ⟨"ADD_Vx_Vy", 0xF00F, 0x8004⟩, ⟨"SUB_Vx_Vy", 0xF00F, 0x8005⟩,
   ⟨"SHR_Vx", 0xF00F, 0x8006⟩, ⟨"RSUB_Vx_Vy", 0xF00F, 0x8007⟩, ⟨"SHL_Vx", 0xF00F, 0x800E⟩]

/-- Rows 19 to 30 of 30_encoding.md R84. -/
def opcodeRowsHigh : List OpcodeRow :=
  [⟨"SKNE_Vx_Vy", 0xF00F, 0x9000⟩, ⟨"MOV_I_addr", 0xF000, 0xA000⟩, ⟨"JMP_V0_addr", 0xF000, 0xB000⟩,
   ⟨"RND_Vx_kk", 0xF000, 0xC000⟩, ⟨"DRW_Vx_Vy_n", 0xF000, 0xD000⟩, ⟨"MOV_Vx_DT", 0xF0FF, 0xF007⟩,
   ⟨"MOV_DT_Vx", 0xF0FF, 0xF015⟩, ⟨"ADD_I_Vx", 0xF0FF, 0xF01E⟩, ⟨"FONT_Vx", 0xF0FF, 0xF029⟩,
   ⟨"BCD_Vx", 0xF0FF, 0xF033⟩, ⟨"STR__I__Vx", 0xF0FF, 0xF055⟩, ⟨"LD_Vx__I", 0xF0FF, 0xF065⟩]

/-- The 30 rows of 30_encoding.md R84 (the encodings are the spec's decision D1, log 4). -/
def opcodeRows : List OpcodeRow := opcodeRowsLow ++ opcodeRowsAlu ++ opcodeRowsHigh

/-- The word `w` lies in the row `r` (30_encoding.md R84). -/
def OpcodeRow.holds (r : OpcodeRow) (w : Word) : Bool := w &&& r.mask == r.pattern

/-- The word is an instruction word: some row of the opcode map holds it (30_encoding.md R84, R88). -/
def wordWellFormed (w : Word) : Bool := opcodeRows.any (·.holds w)

/-- The image fits the program region, so Reset loads it (70_reset_and_hazards.md R210, R213). -/
def imageFits (prog : List Byte) : Bool := prog.length ≤ Config.programMax

end Sys2Proof
end

