-- ==== Sys2Proof/Decode.lean ====
section
/-! DEFINITION. The decoder, total on every word and every byte string, the encoder written from the same patterns, and the
assembly spelling (30_encoding.md R80 to R92). -/

namespace Sys2Proof

/-! ## Byte order (20_memory.md R52, 30_encoding.md R80) -/

/-- Bits 15..8 of a word, the byte at the lower address. -/
def highByte (w : Word) : Byte := w.extractLsb' 8 8

/-- Bits 7..0 of a word, the byte at the higher address. -/
def lowByte (w : Word) : Byte := w.extractLsb' 0 8

/-- The big-endian word of two bytes, the first at the lower address. -/
def joinBytes (hi lo : Byte) : Word := hi ++ lo

/-! ## Fields (30_encoding.md R81) -/

/-- `op`, nibble 0, `w[15:12]`. -/
def opField (w : Word) : Nibble := w.extractLsb' 12 4

/-- `x`, the source's reg1, nibble 1, `w[11:8]`. -/
def xField (w : Word) : Nibble := w.extractLsb' 8 4

/-- `y`, the source's reg2, nibble 2, `w[7:4]`. -/
def yField (w : Word) : Nibble := w.extractLsb' 4 4

/-- `n`, the source's sizeNibble, nibble 3, `w[3:0]`. -/
def nField (w : Word) : Nibble := w.extractLsb' 0 4

/-- `kk`, the source's byte, `w[7:0]`. -/
def kkField (w : Word) : Byte := w.extractLsb' 0 8

/-- `addr`, the source's address or tribble, `w[11:0]`. -/
def addrField (w : Word) : Addr := w.extractLsb' 0 12

/-! ## Decoding (30_encoding.md R84 to R89) -/

/-- Major opcode 8, told apart by `n` (R86). Nibble 2 of the shifts is ignored (R87). -/
def decodeAlu (w : Word) : Option Instr :=
  match (nField w).toNat with
  | 0x0 => some (.movReg (xField w) (yField w))
  | 0x1 => some (.orReg (xField w) (yField w))
  | 0x2 => some (.andReg (xField w) (yField w))
  | 0x3 => some (.xorReg (xField w) (yField w))
  | 0x4 => some (.addReg (xField w) (yField w))
  | 0x5 => some (.subReg (xField w) (yField w))
  | 0x6 => some (.shr (xField w))
  | 0x7 => some (.rsubReg (xField w) (yField w))
  | 0xE => some (.shl (xField w))
  | _ => none

/-- Major opcode 0xF, told apart by `kk` (R86). -/
def decodeMisc (w : Word) : Option Instr :=
  match (kkField w).toNat with
  | 0x07 => some (.movFromDT (xField w))
  | 0x15 => some (.movToDT (xField w))
  | 0x1E => some (.addI (xField w))
  | 0x29 => some (.font (xField w))
  | 0x33 => some (.bcd (xField w))
  | 0x55 => some (.str (xField w))
  | 0x65 => some (.ld (xField w))
  | _ => none

/-- The decoder: a word selects one of the 30 instructions or none (R85), written as the two-level case of R86. -/
def decode (w : Word) : Option Instr :=
  match (opField w).toNat with
  | 0x0 => if w = 0x00E0 then some .cls else if w = 0x00EE then some .ret else none
  | 0x1 => some (.jmp (addrField w))
  | 0x2 => some (.call (addrField w))
  | 0x3 => some (.skeImm (xField w) (kkField w))
  | 0x4 => some (.skneImm (xField w) (kkField w))
  | 0x5 => if nField w = 0 then some (.skeReg (xField w) (yField w)) else none
  | 0x6 => some (.movImm (xField w) (kkField w))
  | 0x7 => some (.addImm (xField w) (kkField w))
  | 0x8 => decodeAlu w
  | 0x9 => if nField w = 0 then some (.skneReg (xField w) (yField w)) else none
  | 0xA => some (.movI (addrField w))
  | 0xB => some (.jmpV0 (addrField w))
  | 0xC => some (.rnd (xField w) (kkField w))
  | 0xD => some (.drw (xField w) (yField w) (nField w))
  | 0xF => decodeMisc w
  | _ => none

/-- Why a byte string holds no instruction at its front. -/
inductive DecodeReject where
  /-- The word matches no row of the opcode map: a decode failure (R88). -/
  | unmatched (w : Word)
  /-- Fewer than two bytes: no instruction word (R80, R90). -/
  | truncated
deriving DecidableEq, Repr

/-- What decoding a byte string answers: the instruction with the bytes after it, or the reason there is none. -/
inductive Decoded where
  | instr (i : Instr) (rest : List Byte)
  | rejected (why : DecodeReject)
deriving DecidableEq, Repr

/-- Decode the instruction at the front of a byte string: always 2 bytes, big-endian (R80, R90). -/
def decodeBytes : List Byte → Decoded
  | hi :: lo :: rest =>
    match decode (joinBytes hi lo) with
    | some i => .instr i rest
    | none => .rejected (.unmatched (joinBytes hi lo))
  | _ => .rejected .truncated

/-- The instruction this decoder reads from an instruction word whose bits are `w`, bit 0 the least significant. The
word is laid out big-endian, as the hardware stores it. -/
def decodeTableWord (nbits w : Nat) : Option Instr :=
  let word : Word := BitVec.ofNat 16 (w % 2 ^ nbits)
  match decodeBytes [highByte word, lowByte word] with
  | .instr i _ => some i
  | .rejected _ => none

/-! ## Encoding (30_encoding.md R82, R84) -/

/-- Format NNN: `op || addr`. -/
def encNNN (op : Nibble) (addr : Addr) : Word := op ++ addr

/-- Format XKK: `op || x || kk`. -/
def encXKK (op x : Nibble) (kk : Byte) : Word := (op ++ x ++ kk : BitVec 16)

/-- Formats XY and XYN: `op || x || y || n`. -/
def encXYN (op x y n : Nibble) : Word := (op ++ x ++ y ++ n : BitVec 16)

/-- The word of an instruction, from the pattern column of R84; the ignored nibble of a shift is 0 (R87). -/
def encode : Instr → Word
  | .cls => 0x00E0
  | .ret => 0x00EE
  | .jmp addr => encNNN 0x1 addr
  | .call addr => encNNN 0x2 addr
  | .skeImm x kk => encXKK 0x3 x kk
  | .skneImm x kk => encXKK 0x4 x kk
  | .skeReg x y => encXYN 0x5 x y 0x0
  | .movImm x kk => encXKK 0x6 x kk
  | .addImm x kk => encXKK 0x7 x kk
  | .movReg x y => encXYN 0x8 x y 0x0
  | .orReg x y => encXYN 0x8 x y 0x1
  | .andReg x y => encXYN 0x8 x y 0x2
  | .xorReg x y => encXYN 0x8 x y 0x3
  | .addReg x y => encXYN 0x8 x y 0x4
  | .subReg x y => encXYN 0x8 x y 0x5
  | .shr x => encXYN 0x8 x 0x0 0x6
  | .rsubReg x y => encXYN 0x8 x y 0x7
  | .shl x => encXYN 0x8 x 0x0 0xE
  | .skneReg x y => encXYN 0x9 x y 0x0
  | .movI addr => encNNN 0xA addr
  | .jmpV0 addr => encNNN 0xB addr
  | .rnd x kk => encXKK 0xC x kk
  | .drw x y n => encXYN 0xD x y n
  | .movFromDT x => encXKK 0xF x 0x07
  | .movToDT x => encXKK 0xF x 0x15
  | .addI x => encXKK 0xF x 0x1E
  | .font x => encXKK 0xF x 0x29
  | .bcd x => encXKK 0xF x 0x33
  | .str x => encXKK 0xF x 0x55
  | .ld x => encXKK 0xF x 0x65

/-- The two bytes of an instruction in memory order (R80). -/
def encodeBytes (i : Instr) : List Byte := [highByte (encode i), lowByte (encode i)]

/-! ## Assembly spelling (30_encoding.md R91) -/

/-- A hexadecimal digit, capital. -/
def hexDigit (d : Nibble) : String :=
  ["0", "1", "2", "3", "4", "5", "6", "7", "8", "9", "A", "B", "C", "D", "E", "F"].getD d.toNat ""

/-- A general register: `V` and one hexadecimal digit. -/
def asmReg (x : Nibble) : String := "V" ++ hexDigit x

/-- A byte: `0x` and two hexadecimal digits. -/
def asmByte (kk : Byte) : String := "0x" ++ hexDigit (kk.extractLsb' 4 4) ++ hexDigit (kk.extractLsb' 0 4)

/-- An address: `0x` and three hexadecimal digits. -/
def asmAddr (addr : Addr) : String :=
  "0x" ++ hexDigit (addr.extractLsb' 8 4) ++ hexDigit (addr.extractLsb' 4 4) ++ hexDigit (addr.extractLsb' 0 4)

/-- A sprite height: of the two spellings the spec allows, `0x` and one digit (log 22). -/
def asmHeight (n : Nibble) : String := "0x" ++ hexDigit n

/-- The assembly spelling of an instruction: the mnemonic, a space, the operands with commas between (R91; the spec's D31).
There are no pseudo-instructions (R92). -/
def asm : Instr → String
  | .cls => "CLS"
  | .ret => "RET"
  | .jmp addr => "JMP " ++ asmAddr addr
  | .call addr => "CALL " ++ asmAddr addr
  | .skeImm x kk => "SKE " ++ asmReg x ++ "," ++ asmByte kk
  | .skneImm x kk => "SKNE " ++ asmReg x ++ "," ++ asmByte kk
  | .skeReg x y => "SKE " ++ asmReg x ++ "," ++ asmReg y
  | .movImm x kk => "MOV " ++ asmReg x ++ "," ++ asmByte kk
  | .addImm x kk => "ADD " ++ asmReg x ++ "," ++ asmByte kk
  | .movReg x y => "MOV " ++ asmReg x ++ "," ++ asmReg y
  | .orReg x y => "OR " ++ asmReg x ++ "," ++ asmReg y
  | .andReg x y => "AND " ++ asmReg x ++ "," ++ asmReg y
  | .xorReg x y => "XOR " ++ asmReg x ++ "," ++ asmReg y
  | .addReg x y => "ADD " ++ asmReg x ++ "," ++ asmReg y
  | .subReg x y => "SUB " ++ asmReg x ++ "," ++ asmReg y
  | .shr x => "SHR " ++ asmReg x
  | .rsubReg x y => "RSUB " ++ asmReg x ++ "," ++ asmReg y
  | .shl x => "SHL " ++ asmReg x
  | .skneReg x y => "SKNE " ++ asmReg x ++ "," ++ asmReg y
  | .movI addr => "MOV I," ++ asmAddr addr
  | .jmpV0 addr => "JMP V0," ++ asmAddr addr
  | .rnd x kk => "RND " ++ asmReg x ++ "," ++ asmByte kk
  | .drw x y n => "DRW " ++ asmReg x ++ "," ++ asmReg y ++ "," ++ asmHeight n
  | .movFromDT x => "MOV " ++ asmReg x ++ ",DT"
  | .movToDT x => "MOV DT," ++ asmReg x
  | .addI x => "ADD I," ++ asmReg x
  | .font x => "FONT " ++ asmReg x
  | .bcd x => "BCD " ++ asmReg x
  | .str x => "STR [I]," ++ asmReg x
  | .ld x => "LD " ++ asmReg x ++ ",[I]"

end Sys2Proof
end

