-- ==== Sys2Proof/Machine/State.lean ====
section
/-! DEFINITION. The state of the CORE as plain data, everything 10_state.md R20 lists, the reasons a step could stop,
and the state after reset. -/

namespace Sys2Proof.Machine

/-- Memory: the bytes that differ from what an unlisted address reads as (`resetByte`), by rising address. Every
address 0..4095 is memory (10_state.md R30, 20_memory.md R50). -/
abbrev Memory := List Host.Cell

/-- The display: 32 rows, counted from the top, of 64 cells, counted from the left; true is lit (10_state.md R29). -/
abbrev Grid := Vector (Vector Bool 64) 32

/-- The failures and their absence; the eight values of `FKIND` (60_exceptions.md R180). -/
inductive FailureKind where
  /-- Code 0: no failure recorded. -/
  | noFailure
  /-- Code 1: the fetched word matches no row (R181). -/
  | decodeFailure
  /-- Code 2: the instruction word would extend past address 4095 (R100, R182). -/
  | fetchBounds
  /-- Code 3: a data run would extend past address 4095 (R182; 20_memory.md R56, R57, R60). -/
  | dataBounds
  /-- Code 4: a store would change the font (R182; 20_memory.md R58). -/
  | fontWrite
  /-- Code 5: `CALL` with 16 return addresses stacked (R183). -/
  | stackOverflow
  /-- Code 6: `RET` with none stacked (R183). -/
  | stackUnderflow
  /-- Code 7: Reset with an image longer than 3584 bytes (R185). -/
  | loadFailure
deriving DecidableEq, Repr

/-- The events the host issues (00_scope.md R9). -/
inductive Event where
  /-- `Step(r)`: one fetch, decode, execute; the draw `r` is the model's free value (log 2). -/
  | step
  /-- `Tick`: the timer's decrement (60_exceptions.md R193). -/
  | tick
  /-- `Reset(prog)`: build every piece of state anew from a program image (70_reset_and_hazards.md R210). -/
  | reset (prog : List Byte)
deriving DecidableEq, Repr

/-- The complete state of the block (10_state.md R20), and the host's events still to come. -/
structure State where
  /-- `V0`..`VF`, the general registers; `VF`, number 15, is the flags register (R21, R22). -/
  V : Vector Byte 16
  /-- `I`, the index register, all 16 bits kept (R23). -/
  I : Word
  /-- The program counter, between events the address of the next fetch (R24). -/
  pc : Word
  /-- The stack pointer: the most recently pushed return address, 0x1000 when the stack is empty (R26). -/
  sp : Word
  /-- The timer counter (R28). -/
  DT : Byte
  /-- The display grid (R29). -/
  Px : Grid
  /-- Memory (R30). -/
  mem : Memory
  /-- The random source (R32): how many draws it has made, the index of its next free value (log 2). -/
  rng : Nat
  /-- `HALT`: true after a failure; while true, Step does nothing (R33). -/
  halt : Bool
  /-- `FKIND`: which failure (R33). -/
  fkind : FailureKind
  /-- `FOP`: the instruction word that failed (R33). -/
  fop : Word
  /-- `FADDR`: where the failing instruction was fetched from (R33). -/
  faddr : Word
  /-- The MODEL's own field, not the block's: the events the host issues next, in order; when none is listed the host
  issues a Step (log 1). -/
  schedule : List Event
deriving DecidableEq, Repr

/-- Why a step could stop with a fault: for no reason at all. A Step completes or records a failure and halts the block,
which is a next state (00_scope.md R10, 60_exceptions.md R186), so there is no constructor and nobody raises one (safe: log 7). -/
inductive Fault
deriving DecidableEq, Repr

/-- Why a step could be refused. -/
inductive Refusal where
  /-- The instruction has no meaning yet. No arm of `exec` answers it: every instruction of the table is modelled, so
  nobody raises it (it would be safe). -/
  | notModelled (mnemonic : String)
deriving DecidableEq, Repr

/-- The state after `Reset` of the empty image (10_state.md R35, 70_reset_and_hazards.md R210): font and zeros in memory,
every register and the display at the value of R35 (log 3), `rng` and `schedule` at the model's own values (log 1, log 2). -/
def State.reset : State where
  V := Vector.replicate 16 0
  I := 0
  pc := 0x200
  sp := 0x1000
  DT := 0
  Px := Vector.replicate 32 (Vector.replicate 64 false)
  mem := []
  rng := 0
  halt := false
  fkind := .noFailure
  fop := 0
  faddr := 0
  schedule := []

end Sys2Proof.Machine
end

