-- ==== Sys2Proof/Machine/Font.lean ====
section
/-! DEFINITION. The built-in font (10_state.md R31) and what every memory byte holds at Reset before an image is loaded. -/

namespace Sys2Proof.Machine

/-- The glyphs of the digits 0 to 7, five bytes each, top row first (R31; the bytes are the spec's decision D6, log 5). -/
def fontLow : List Byte :=
  [0xF0, 0x90, 0x90, 0x90, 0xF0,
   0x20, 0x60, 0x20, 0x20, 0x70,
   0xF0, 0x10, 0xF0, 0x80, 0xF0,
   0xF0, 0x10, 0xF0, 0x10, 0xF0,
   0x90, 0x90, 0xF0, 0x10, 0x10,
   0xF0, 0x80, 0xF0, 0x10, 0xF0,
   0xF0, 0x80, 0xF0, 0x90, 0xF0,
   0xF0, 0x10, 0x20, 0x40, 0x40]

/-- The glyphs of the digits 8 to F (R31). -/
def fontHigh : List Byte :=
  [0xF0, 0x90, 0xF0, 0x90, 0xF0,
   0xF0, 0x90, 0xF0, 0x10, 0xF0,
   0xF0, 0x90, 0xF0, 0x90, 0x90,
   0xE0, 0x90, 0xE0, 0x90, 0xE0,
   0xF0, 0x80, 0x80, 0x80, 0xF0,
   0xE0, 0x90, 0x90, 0x90, 0xE0,
   0xF0, 0x80, 0xF0, 0x80, 0xF0,
   0xF0, 0x80, 0xF0, 0x80, 0x80]

/-- `FONT_TABLE`, the 80 bytes at addresses 0..79 (R31). -/
def fontTable : List Byte := fontLow ++ fontHigh

/-- What an address not listed in memory reads as: the font at 0..79, zero above (10_state.md R35,
70_reset_and_hazards.md R210; log 6). -/
def resetByte (a : Nat) : Byte := fontTable.getD (a - Config.fontBase) 0

end Sys2Proof.Machine
end

