-- ==== Sys2Proof/Machine/Ops.lean ====
section
/-! DEFINITION. The operations every instruction is written over: memory, registers, the display's cells, the advance of
`pc`, and the failure entry. -/

namespace Sys2Proof.Machine

/-! ## Memory (20_memory.md) -/

/-- The canonical form of memory: addresses strictly rising and inside 0..4095, and no entry equal to what its address
reads as when it is not listed (log 6). -/
abbrev Memory.wf (m : Memory) : Prop :=
  (m.map Prod.fst).Pairwise (· < ·) ∧ ∀ c ∈ m, c.1 < Config.memCapacity ∧ c.2 ≠ resetByte c.1

/-- `M[a]`: the byte of the most recent store, or the Reset value if there was none (R62). -/
def readByte : Memory → Nat → Byte
  | [], a => resetByte a
  | (k, b) :: rest, a => if k = a then b else readByte rest a

/-- List a byte in its place by rising address. -/
def insertCell : Memory → Nat → Byte → Memory
  | [], a, b => [(a, b)]
  | (k, c) :: rest, a, b => if k < a then (k, c) :: insertCell rest a b else (a, b) :: (k, c) :: rest

/-- `M[a] <- b`: exactly this byte changes (R55, R57). The caller has made the checks. -/
def writeByte (m : Memory) (a : Nat) (b : Byte) : Memory :=
  let others := m.filter (fun c => c.1 ≠ a)
  if b = resetByte a then others else insertCell others a b

/-- The big-endian word at `a`, `a + 1` (R52). -/
def readWord (m : Memory) (a : Nat) : Word := joinBytes (readByte m a) (readByte m (a + 1))

/-- Store a word big-endian at `a`, `a + 1` (R52, R57). -/
def writeWord (m : Memory) (a : Nat) (w : Word) : Memory := writeByte (writeByte m a (highByte w)) (a + 1) (lowByte w)

/-- Store a run of bytes at ascending addresses (R52, R60). -/
def writeRun (m : Memory) (base : Nat) : List Byte → Memory
  | [] => m
  | b :: bs => writeRun (writeByte m base b) (base + 1) bs

/-- Place an image in memory that holds the Reset contents (70_reset_and_hazards.md R210): byte `k` at `base + k`, the
bytes an unlisted address reads as left out. -/
def loadImage (base : Nat) : List Byte → Memory
  | [] => []
  | b :: bs => if b = resetByte base then loadImage (base + 1) bs else (base, b) :: loadImage (base + 1) bs

/-- The check before a read of `len` bytes at `addr`: DataBounds if the last byte lies above 4095, no check for a run of
length 0 (R56, R60). The address is unbounded and never wraps (R59). -/
def checkRead (addr len : Nat) : Option FailureKind :=
  if 0 < len ∧ addr + len - 1 > Config.memCapacity - 1 then some .dataBounds else none

/-- The check before a store of `len` bytes at `addr`: DataBounds first, then FontWrite if the run touches the font
(R57, R58, R60). -/
def checkWrite (addr len : Nat) : Option FailureKind :=
  (checkRead addr len).or (if addr ≤ Config.fontBase + Config.fontSize - 1 then some .fontWrite else none)

/-! ## Registers (10_state.md) -/

/-- The number of VF, the flags register (R22). -/
def vf : Nibble := 0xF

/-- `V[x]` (R21; 00_scope.md R7). -/
def getV (s : State) (x : Nibble) : Byte := s.V[x.toNat]'x.isLt

/-- `V[x] <- v` (R21; 00_scope.md R7). -/
def setV (s : State) (x : Nibble) (v : Byte) : State := { s with V := s.V.set x.toNat v x.isLt }

/-- `I <- v` (R23). -/
def setI (s : State) (v : Word) : State := { s with I := v }

/-- `pc <- v` (R25). -/
def setPc (s : State) (v : Word) : State := { s with pc := v }

/-- `sp <- v` (R26). -/
def setSp (s : State) (v : Word) : State := { s with sp := v }

/-- `DT <- v` (R28). -/
def setDT (s : State) (v : Byte) : State := { s with DT := v }

/-- The display replaced. -/
def setPx (s : State) (g : Grid) : State := { s with Px := g }

/-- Memory replaced. -/
def setMem (s : State) (m : Memory) : State := { s with mem := m }

/-- The random source after one more draw (R32; log 2). -/
def nextDraw (s : State) : State := { s with rng := s.rng + 1 }

/-- `V[0..x]` replaced by the bytes `f 0 .. f x`; registers above `x` keep their values (46_memory_ops.md R171). -/
def setVUpTo (s : State) (x : Nibble) (f : Nat → Byte) : State :=
  { s with V := Vector.ofFn fun k : Fin 16 => if k.val ≤ x.toNat then f k.val else s.V[k] }

/-! ## Display cells (10_state.md R29) -/

/-- `Px[r][c]`. -/
def getPx (g : Grid) (r : Fin 32) (c : Fin 64) : Bool := (g[r])[c]

/-- `Px[r][c] <- v`. -/
def putPx (g : Grid) (r : Fin 32) (c : Fin 64) (v : Bool) : Grid := g.set r.val ((g[r]).set c.val v c.isLt) r.isLt

/-- The grid with every cell unlit (45_display.md R160). -/
def clearGrid : Grid := Vector.replicate 32 (Vector.replicate 64 false)

/-! ## The step's frame and the failure entry -/

/-- The advance after a fetch: `pc <- a + 2` (40_step_cycle.md R101). -/
def advance (s : State) : State := setPc s (s.pc + BitVec.ofNat 16 Config.instrBytes)

/-- `raise K(op, addr)`, THE failure entry (60_exceptions.md R186), applied to the state as it was before the Step: every
write the Step has made, the advance of `pc` included, is discarded because it is not there; `FADDR` is the fetch address.
There is no return beside it: only Reset leaves the halted state (R187). -/
def raise (k : FailureKind) (op : Word) (s : State) : State :=
  { s with halt := true, fkind := k, fop := op, faddr := s.pc }

/-- An instruction with checks of its own: `s` is the state before the Step, `t` what the rule leaves when no check fails.
The first failing check is raised with the instruction word (40_step_cycle.md R103, 60_exceptions.md R184, R186). -/
def attempt (check : Option FailureKind) (op : Word) (s t : State) : Host.Outcome State Fault Refusal :=
  match check with
  | some k => .next (raise k op s)
  | none => .next t

/-- The code of a failure in `FKIND` (60_exceptions.md R180). -/
def failureCode : FailureKind → BitVec 3
  | .noFailure => 0
  | .decodeFailure => 1
  | .fetchBounds => 2
  | .dataBounds => 3
  | .fontWrite => 4
  | .stackOverflow => 5
  | .stackUnderflow => 6
  | .loadFailure => 7

end Sys2Proof.Machine
end

