-- ==== Sys2Proof/Machine/Operands.lean ====
section
/-! DEFINITION. The operand forms (30_encoding.md R83): register direct (`getV`, `setV` of Ops), the immediates, memory at
`[I]`, and the call stack. -/

namespace Sys2Proof.Machine

/-- `zext_16(addr)`: the 12-bit address as a 16-bit value, unsigned (R83). -/
def zextAddr (addr : Addr) : Word := addr.setWidth 16

/-- A byte as a 16-bit value, unsigned (00_scope.md R6). -/
def zextByte (b : Byte) : Word := b.setWidth 16

/-- The address a memory operand `[I]` names, in unbounded arithmetic (20_memory.md R59). -/
def indexAddr (s : State) : Nat := s.I.toNat

/-- How many registers `LD Vx,[I]` and `STR [I],Vx` transfer: `V[0]..V[x]` (46_memory_ops.md R171, R172). -/
def regCount (x : Nibble) : Nat := x.toNat + 1

/-- The bytes `V[0], ..., V[x]` in order (46_memory_ops.md R172). -/
def regsUpTo (s : State) (x : Nibble) : List Byte := s.V.toList.take (regCount x)

/-- Where a push stores: `sp - 2` (10_state.md R26). -/
def pushAddr (s : State) : Nat := s.sp.toNat - 2

/-- Where a pop loads: `sp` (10_state.md R26). -/
def popAddr (s : State) : Nat := s.sp.toNat

/-- `sp - 2 < STACK_BASE` raises StackOverflow (41_jumps_calls.md R112). -/
def checkPush (s : State) : Option FailureKind :=
  if s.sp.toNat < Config.stackBase + 2 then some .stackOverflow else none

/-- `sp >= STACK_TOP` raises StackUnderflow (41_jumps_calls.md R113). -/
def checkPop (s : State) : Option FailureKind :=
  if s.sp.toNat ≥ Config.stackTop then some .stackUnderflow else none

/-- The push of 10_state.md R26: subtract 2, then store the word at `sp`. -/
def push (s : State) (w : Word) : State := setMem (setSp s (s.sp - 2)) (writeWord s.mem (pushAddr s) w)

/-- The word a pop loads (10_state.md R26). -/
def popped (s : State) : Word := readWord s.mem (popAddr s)

/-- The pop's `sp + 2` (10_state.md R26). -/
def dropTop (s : State) : State := setSp s (s.sp + 2)

end Sys2Proof.Machine
end

