-- ==== Sys2Proof/Machine/Flags.lean ====
section
/-! DEFINITION. The values the five flag-writing instructions leave in VF (10_state.md R22). -/

namespace Sys2Proof.Machine

/-- A flag as the byte VF receives, 1 or 0. -/
def flag (b : Bool) : Byte := if b then 1 else 0

/-- `ADD Vx,Vy`: the carry bit, `(a + b) div 256` (43_alu.md R131). -/
def carryFlag (a b : Byte) : Byte := flag (a.toNat + b.toNat > 255)

/-- `SUB Vx,Vy`: NOT borrow, 1 when `a >= b` (43_alu.md R133). -/
def notBorrowFlag (a b : Byte) : Byte := flag (a.toNat ≥ b.toNat)

/-- `SHR Vx`: bit 0 of the unshifted value (43_alu.md R138). -/
def lowBitFlag (a : Byte) : Byte := a &&& 1

/-- `SHL Vx`: bit 7 of the unshifted value (43_alu.md R139). -/
def highBitFlag (a : Byte) : Byte := (a >>> 7) &&& 1

/-- `DRW Vx,Vy,n`: 1 if at least one cell went from lit to unlit (45_display.md R161). -/
def collisionFlag (hit : Bool) : Byte := flag hit

end Sys2Proof.Machine
end

