-- ==== Sys2Proof/Machine/Alu.lean ====
section
/-! DEFINITION. Register arithmetic, logic, shifts and random (43_alu.md). None can fail. Byte arithmetic wraps modulo 256
and index arithmetic modulo 65536 (R141), which is the arithmetic of the bit vectors. Writes happen in the order the rules
write them, also when the destination is VF (00_scope.md R8). -/

namespace Sys2Proof.Machine

/-- The result to `V[x]`, then the flag to VF: the order of `ADD Vx,Vy` and `SUB Vx,Vy` (R131, R133). -/
def resultThenFlag (s : State) (x : Nibble) (result f : Byte) : State := setV (setV s x result) vf f

/-- The flag to VF, then the shift of `V[x]` as it stands then: the order of `SHR Vx` and `SHL Vx` (R138, R139). -/
def flagThenShift (s : State) (x : Nibble) (f : Byte) (shift : Byte → Byte) : State :=
  setV (setV s vf f) x (shift (getV (setV s vf f) x))

/-- `ADD Vx,kk`; no flag (R130). -/
def execAddImm (x : Nibble) (kk : Byte) (s : State) : Host.Outcome State Fault Refusal :=
  .next (setV (advance s) x (getV s x + kk))

/-- `ADD Vx,Vy`, carry to VF (R131). -/
def execAddReg (x y : Nibble) (s : State) : Host.Outcome State Fault Refusal :=
  .next (resultThenFlag (advance s) x (getV s x + getV s y) (carryFlag (getV s x) (getV s y)))

/-- `ADD I,Vx`, modulo 65536; no flag (R132). -/
def execAddI (x : Nibble) (s : State) : Host.Outcome State Fault Refusal :=
  .next (setI (advance s) (s.I + zextByte (getV s x)))

/-- `SUB Vx,Vy`, NOT borrow to VF (R133). -/
def execSubReg (x y : Nibble) (s : State) : Host.Outcome State Fault Refusal :=
  .next (resultThenFlag (advance s) x (getV s x - getV s y) (notBorrowFlag (getV s x) (getV s y)))

/-- `RSUB Vx,Vy`, the reversed subtract; no flag (R134). -/
def execRsubReg (x y : Nibble) (s : State) : Host.Outcome State Fault Refusal :=
  .next (setV (advance s) x (getV s y - getV s x))

/-- `OR Vx,Vy`; no flag (R135). -/
def execOrReg (x y : Nibble) (s : State) : Host.Outcome State Fault Refusal :=
  .next (setV (advance s) x (getV s x ||| getV s y))

/-- `AND Vx,Vy`; no flag (R136). -/
def execAndReg (x y : Nibble) (s : State) : Host.Outcome State Fault Refusal :=
  .next (setV (advance s) x (getV s x &&& getV s y))

/-- `XOR Vx,Vy`; no flag (R137). -/
def execXorReg (x y : Nibble) (s : State) : Host.Outcome State Fault Refusal :=
  .next (setV (advance s) x (getV s x ^^^ getV s y))

/-- `SHR Vx`: bit 0 to VF, then the logical shift by one (R138). -/
def execShr (x : Nibble) (s : State) : Host.Outcome State Fault Refusal :=
  .next (flagThenShift (advance s) x (lowBitFlag (getV s x)) (fun v => v >>> 1))

/-- `SHL Vx`: bit 7 to VF, then the shift by one (R139). -/
def execShl (x : Nibble) (s : State) : Host.Outcome State Fault Refusal :=
  .next (flagThenShift (advance s) x (highBitFlag (getV s x)) (fun v => v <<< 1))

/-- `draw(0, kk)`: the free byte brought into `0 .. kk`. Every value of the range is the draw of some free byte, that value
itself, so nothing but the range is fixed (R140, U1; log 2). -/
def boundedDraw (free kk : Byte) : Byte := BitVec.ofNat 8 (free.toNat % (kk.toNat + 1))

/-- `RND Vx,kk` for a given free byte: one more draw is made, and `V[x]` holds it (R140). -/
def rndWith (free : Byte) (x : Nibble) (kk : Byte) (s : State) : State :=
  setV (nextDraw (advance s)) x (boundedDraw free kk)

/-- `RND Vx,kk`: a free value in `0 .. kk`, no flag (R140). -/
def execRnd (x : Nibble) (kk : Byte) (s : State) : Host.Outcome State Fault Refusal :=
  .next (rndWith (Config.freeDraw s.rng) x kk s)

end Sys2Proof.Machine
end

