-- ==== Sys2Proof/Machine/Display.lean ====
section
/-! DEFINITION. The display instructions and the sprite blitter (45_display.md). -/

namespace Sys2Proof.Machine

/-- `CLS` (R160). -/
def execCls (s : State) : Host.Outcome State Fault Refusal :=
  .next (setPx (advance s) clearGrid)

/-- One bit of a sprite row at `(x0, y0)`: a 1 toggles the cell at row `(y0 + row) mod 32`, column `(x0 + col) mod 64`, and a
cell that was lit is a collision; bit 7 is column 0 (R161, R162, R163). The pair is the grid and the collision so far. -/
def blitBit (x0 y0 row : Nat) (b : Byte) (acc : Grid × Bool) (col : Nat) : Grid × Bool :=
  if b.getLsbD (7 - col) then
    let r := Fin.ofNat 32 (y0 + row)
    let c := Fin.ofNat 64 (x0 + col)
    (putPx acc.1 r c (!getPx acc.1 r c), acc.2 || getPx acc.1 r c)
  else acc

/-- One sprite row: the eight bits of its byte, left to right (R161). -/
def blitRow (m : Memory) (base x0 y0 : Nat) (acc : Grid × Bool) (row : Nat) : Grid × Bool :=
  (List.range 8).foldl (blitBit x0 y0 row (readByte m (base + row))) acc

/-- The whole sprite: `n` rows from the top, the bytes `M[base] .. M[base + n - 1]` (R161). -/
def blit (m : Memory) (base x0 y0 n : Nat) (g : Grid) : Grid × Bool :=
  (List.range n).foldl (blitRow m base x0 y0) (g, false)

/-- `DRW Vx,Vy,n`: DataBounds if the sprite leaves memory, else XOR it onto the display, collision to VF; the coordinates
are read before VF is written (R161). -/
def execDrw (x y n : Nibble) (s : State) : Host.Outcome State Fault Refusal :=
  let drawn := blit s.mem (indexAddr s) (getV s x).toNat (getV s y).toNat n.toNat s.Px
  attempt (checkRead (indexAddr s) n.toNat) (encode (.drw x y n)) s
    (setV (setPx (advance s) drawn.1) vf (collisionFlag drawn.2))

end Sys2Proof.Machine
end

