-- ==== Sys2Proof/Machine/Jumps.lean ====
section
/-! DEFINITION. Jumps, call and return (41_jumps_calls.md). Every meaning takes the state before the Step and applies the
rule to the state after the advance (40_step_cycle.md R103). -/

namespace Sys2Proof.Machine

/-- `JMP addr` (R110). -/
def execJmp (addr : Addr) (s : State) : Host.Outcome State Fault Refusal :=
  .next (setPc (advance s) (zextAddr addr))

/-- `JMP V0,addr`: the sum is not reduced (R111). -/
def execJmpV0 (addr : Addr) (s : State) : Host.Outcome State Fault Refusal :=
  .next (setPc (advance s) (zextAddr addr + zextByte (getV s 0)))

/-- `CALL addr`: StackOverflow, else push the address of the next instruction and jump (R112). The store is a checked
MemWrite as the rule writes it; its own check can fail only for an `sp` that no run reaches (log 16). -/
def execCall (addr : Addr) (s : State) : Host.Outcome State Fault Refusal :=
  attempt ((checkPush s).or (checkWrite (pushAddr s) 2)) (encode (.call addr)) s
    (setPc (push (advance s) (advance s).pc) (zextAddr addr))

/-- `RET`: StackUnderflow, else pop the return address into `pc` (R113). The load is a checked MemRead (log 16). -/
def execRet (s : State) : Host.Outcome State Fault Refusal :=
  attempt ((checkPop s).or (checkRead (popAddr s) 2)) (encode .ret) s
    (dropTop (setPc (advance s) (popped s)))

end Sys2Proof.Machine
end

