-- ==== Sys2Proof/Machine/MemoryOps.lean ====
section
/-! DEFINITION. The memory instructions (46_memory_ops.md). `I` is unchanged by BCD, LD and STR. -/

namespace Sys2Proof.Machine

/-- The decimal digits of a byte: hundreds, tens, ones, each a value 0..9 (R170). -/
def decimalDigits (v : Byte) : List Byte :=
  [BitVec.ofNat 8 (v.toNat / 100), BitVec.ofNat 8 (v.toNat / 10 % 10), BitVec.ofNat 8 (v.toNat % 10)]

/-- `BCD Vx`: the three digits to `M[I]`, `M[I + 1]`, `M[I + 2]`, or DataBounds or FontWrite (R170). -/
def execBcd (x : Nibble) (s : State) : Host.Outcome State Fault Refusal :=
  attempt (checkWrite (indexAddr s) 3) (encode (.bcd x)) s
    (setMem (advance s) (writeRun s.mem (indexAddr s) (decimalDigits (getV s x))))

/-- `LD Vx,[I]`: `V[k] <- M[I + k]` for `k` in `0 .. x`, or DataBounds (R171). -/
def execLd (x : Nibble) (s : State) : Host.Outcome State Fault Refusal :=
  attempt (checkRead (indexAddr s) (regCount x)) (encode (.ld x)) s
    (setVUpTo (advance s) x (fun k => readByte s.mem (indexAddr s + k)))

/-- `STR [I],Vx`: `M[I + k] <- V[k]` for `k` in `0 .. x`, or DataBounds or FontWrite (R172). -/
def execStr (x : Nibble) (s : State) : Host.Outcome State Fault Refusal :=
  attempt (checkWrite (indexAddr s) (regCount x)) (encode (.str x)) s
    (setMem (advance s) (writeRun s.mem (indexAddr s) (regsUpTo s x)))

/-- The address of the glyph of the digit in the low nibble of a byte (R173; log 12). -/
def glyphAddr (v : Byte) : Word := BitVec.ofNat 16 (Config.fontBase + (v &&& 0x0F).toNat * Config.glyphSize)

/-- `FONT Vx`: point `I` at a glyph; no memory access (R173). -/
def execFont (x : Nibble) (s : State) : Host.Outcome State Fault Refusal :=
  .next (setI (advance s) (glyphAddr (getV s x)))

end Sys2Proof.Machine
end

