-- ==== Sys2Proof/Machine/Moves.lean ====
section
/-! DEFINITION. Moves between registers, index and timer (42_moves.md). None can fail. -/

namespace Sys2Proof.Machine

/-- `MOV Vx,kk` (R120). -/
def execMovImm (x : Nibble) (kk : Byte) (s : State) : Host.Outcome State Fault Refusal :=
  .next (setV (advance s) x kk)

/-- `MOV Vx,Vy` (R121). -/
def execMovReg (x y : Nibble) (s : State) : Host.Outcome State Fault Refusal :=
  .next (setV (advance s) x (getV s y))

/-- `MOV I,addr` (R122). -/
def execMovI (addr : Addr) (s : State) : Host.Outcome State Fault Refusal :=
  .next (setI (advance s) (zextAddr addr))

/-- `MOV DT,Vx` (R123). -/
def execMovToDT (x : Nibble) (s : State) : Host.Outcome State Fault Refusal :=
  .next (setDT (advance s) (getV s x))

/-- `MOV Vx,DT` (R124). -/
def execMovFromDT (x : Nibble) (s : State) : Host.Outcome State Fault Refusal :=
  .next (setV (advance s) x s.DT)

end Sys2Proof.Machine
end

