-- ==== Sys2Proof/Machine/Skips.lean ====
section
/-! DEFINITION. Conditional skips (44_skips.md). None writes a register, touches memory or can fail. -/

namespace Sys2Proof.Machine

/-- The skip: 2 more on top of the advance when the condition holds; the skipped word is not read (R150). -/
def skipIf (cond : Bool) (s : State) : Host.Outcome State Fault Refusal :=
  .next (if cond then advance (advance s) else advance s)

/-- `SKE Vx,kk` (R151). -/
def execSkeImm (x : Nibble) (kk : Byte) (s : State) : Host.Outcome State Fault Refusal :=
  skipIf (getV s x == kk) s

/-- `SKE Vx,Vy` (R152). -/
def execSkeReg (x y : Nibble) (s : State) : Host.Outcome State Fault Refusal :=
  skipIf (getV s x == getV s y) s

/-- `SKNE Vx,kk` (R153). -/
def execSkneImm (x : Nibble) (kk : Byte) (s : State) : Host.Outcome State Fault Refusal :=
  skipIf (getV s x != kk) s

/-- `SKNE Vx,Vy` (R154). -/
def execSkneReg (x y : Nibble) (s : State) : Host.Outcome State Fault Refusal :=
  skipIf (getV s x != getV s y) s

end Sys2Proof.Machine
end

