-- ==== Sys2Proof/Machine/Dispatch.lean ====
section
/-! DEFINITION. The dispatch of a decoded instruction to its meaning, one arm per constructor (40_step_cycle.md R102). -/

namespace Sys2Proof.Machine

/-- Execute one decoded instruction on the state before the Step's advance: the advance of R101 and the instruction's rule
(40_step_cycle.md R103), or the failure entry (60_exceptions.md R186). -/
def exec (i : Instr) (s : State) : Host.Outcome State Fault Refusal :=
  match i with
  | .cls => Sys2Proof.Machine.execCls s
  | .ret => Sys2Proof.Machine.execRet s
  | .jmp addr => Sys2Proof.Machine.execJmp addr s
  | .call addr => Sys2Proof.Machine.execCall addr s
  | .skeImm x kk => Sys2Proof.Machine.execSkeImm x kk s
  | .skneImm x kk => Sys2Proof.Machine.execSkneImm x kk s
  | .skeReg x y => Sys2Proof.Machine.execSkeReg x y s
  | .movImm x kk => Sys2Proof.Machine.execMovImm x kk s
  | .addImm x kk => Sys2Proof.Machine.execAddImm x kk s
  | .movReg x y => Sys2Proof.Machine.execMovReg x y s
  | .orReg x y => Sys2Proof.Machine.execOrReg x y s
  | .andReg x y => Sys2Proof.Machine.execAndReg x y s
  | .xorReg x y => Sys2Proof.Machine.execXorReg x y s
  | .addReg x y => Sys2Proof.Machine.execAddReg x y s
  | .subReg x y => Sys2Proof.Machine.execSubReg x y s
  | .shr x => Sys2Proof.Machine.execShr x s
  | .rsubReg x y => Sys2Proof.Machine.execRsubReg x y s
  | .shl x => Sys2Proof.Machine.execShl x s
  | .skneReg x y => Sys2Proof.Machine.execSkneReg x y s
  | .movI addr => Sys2Proof.Machine.execMovI addr s
  | .jmpV0 addr => Sys2Proof.Machine.execJmpV0 addr s
  | .rnd x kk => Sys2Proof.Machine.execRnd x kk s
  | .drw x y n => Sys2Proof.Machine.execDrw x y n s
  | .movFromDT x => Sys2Proof.Machine.execMovFromDT x s
  | .movToDT x => Sys2Proof.Machine.execMovToDT x s
  | .addI x => Sys2Proof.Machine.execAddI x s
  | .font x => Sys2Proof.Machine.execFont x s
  | .bcd x => Sys2Proof.Machine.execBcd x s
  | .str x => Sys2Proof.Machine.execStr x s
  | .ld x => Sys2Proof.Machine.execLd x s

end Sys2Proof.Machine
end

