-- ==== Sys2Proof/Machine/Events.lean ====
section
/-! DEFINITION. The three atomic events of the block (00_scope.md R9): Step, Tick and Reset, and the host's reads. -/

namespace Sys2Proof.Machine

/-- The fetch: the big-endian word at `pc`, or none when it would extend past address 4095 (40_step_cycle.md R100). -/
def fetch (s : State) : Option Word :=
  if s.pc.toNat + 1 > Config.memCapacity - 1 then none else some (readWord s.mem s.pc.toNat)

/-- Decode and dispatch a fetched word (40_step_cycle.md R102, R103). -/
def executeWord (w : Word) (s : State) : Host.Outcome State Fault Refusal :=
  match decode w with
  | some i => exec i s
  | none => .next (raise .decodeFailure w s)

/-- The Step event, assembled as 40_step_cycle.md R105; a halted block is unchanged (R104). -/
def stepEvent (s : State) : Host.Outcome State Fault Refusal :=
  if s.halt then .next s
  else
    match fetch s with
    | some w => executeWord w s
    | none => .next (raise .fetchBounds 0 s)

/-- The Tick event: the timer down by one, floored at 0, halted or not (60_exceptions.md R193, R195). -/
def tick (s : State) : State := if s.DT = 0 then s else setDT s (s.DT - 1)

/-- The state after `Reset(prog)`: an image that fits is loaded at 0x200; a longer one is not loaded at all and leaves the
block halted with LoadFailure (70_reset_and_hazards.md R210, R211). -/
def resetWith (prog : List Byte) : State :=
  if imageFits prog then { State.reset with mem := loadImage Config.programBase prog }
  else { State.reset with halt := true, fkind := .loadFailure, fop := 0, faddr := 0 }

/-- The Reset event in a run: nothing of the block survives (R210). The host's schedule is not the block's, and the random
source, whose state Reset leaves unspecified (10_state.md R35), goes on to free values not drawn before (log 2). -/
def resetEvent (prog : List Byte) (s : State) : State :=
  { resetWith prog with rng := s.rng, schedule := s.schedule }

/-- What one event of the host does (00_scope.md R9). -/
def applyEvent (e : Event) (s : State) : Host.Outcome State Fault Refusal :=
  match e with
  | .step => stepEvent s
  | .tick => .next (tick s)
  | .reset prog => .next (resetEvent prog s)

/-- The display read port: the host reads a cell between events, and nothing changes (45_display.md R165). -/
def hostReadPixel (s : State) (r : Fin 32) (c : Fin 64) : Bool := getPx s.Px r c

/-- The failure record as the host reads it between events: `HALT`, `FKIND` by its code, `FOP`, `FADDR`
(60_exceptions.md R190; 10_state.md R33). -/
def hostReadRecord (s : State) : Bool × BitVec 3 × Word × Word := (s.halt, failureCode s.fkind, s.fop, s.faddr)

/-- The word's two bytes placed where the next fetch reads them. -/
def placeWord (s : State) (w : Word) : State := setMem s (writeWord s.mem s.pc.toNat w)

/-- The block released from a recorded failure and the host about to issue a Step: what a fetch needs besides the word. -/
def readyToStep (s : State) : State :=
  { s with halt := false, fkind := .noFailure, fop := 0, faddr := 0, schedule := [] }

end Sys2Proof.Machine
end

