-- ==== Sys2Proof/Machine/Step.lean ====
section
/-! DEFINITION. One step of the machine: the host's next event. -/

namespace Sys2Proof.Machine

/-- One step: the next event of the host's schedule, or a Step when the schedule lists none (00_scope.md R9; log 1). -/
def step (s : State) : Host.Outcome State Fault Refusal :=
  match s.schedule with
  | [] => stepEvent s
  | e :: rest => applyEvent e { s with schedule := rest }

/-- The state in which the next step runs exactly the instruction whose bits are `w`: the word stored big-endian at `pc`, no
failure recorded and no other event scheduled (log 18). -/
def State.withFetchWord (s : State) (nbits w : Nat) : State :=
  placeWord (readyToStep s) (BitVec.ofNat 16 (w % 2 ^ nbits))

end Sys2Proof.Machine
end

