-- ==== Sys2Proof/Safety.lean ====
section
/-! DEFINITION. What claims are stated in: the invariant of the machine, the frames, runs over the host's events, and what a
good run is. -/

namespace Sys2Proof.Machine

/-! ## The invariant -/

/-- The font region holds the built-in font (10_state.md R31; 20_memory.md R58). -/
def FontIntact (s : State) : Prop := ∀ a, a < Config.fontSize → readByte s.mem a = fontTable.getD a 0

/-- `sp` is one of the 17 values 0xFE0, 0xFE2, ..., 0x1000 (10_state.md R27). -/
def SpLegal (s : State) : Prop :=
  s.sp.toNat % 2 = 0 ∧ Config.stackBase ≤ s.sp.toNat ∧ s.sp.toNat ≤ Config.stackTop

/-- `HALT = 1` exactly when a failure is recorded, and an empty record is all zero (10_state.md R33, R35). -/
def RecordLegal (s : State) : Prop :=
  (s.halt = true ↔ s.fkind ≠ .noFailure) ∧ (s.halt = false → s.fop = 0 ∧ s.faddr = 0)

/-- The invariant every event keeps. -/
structure Inv (s : State) : Prop where
  memory : Memory.wf s.mem
  font : FontIntact s
  stack : SpLegal s
  record : RecordLegal s

/-! ## Frames: what stays the same from `s` to `t` -/

/-- Every general register outside the list. -/
def SameRegs (except : List Nibble) (s t : State) : Prop := ∀ r, r ∉ except → getV t r = getV s r

/-- Every cell of the display. -/
def SameDisplay (s t : State) : Prop := ∀ r c, getPx t.Px r c = getPx s.Px r c

/-- Every byte of memory outside the `len` bytes from `base` on. -/
def SameBytesOutside (base len : Nat) (s t : State) : Prop :=
  ∀ a, a < base ∨ base + len ≤ a → readByte t.mem a = readByte s.mem a

/-- Every byte of memory. -/
def SameBytes (s t : State) : Prop := ∀ a, readByte t.mem a = readByte s.mem a

/-- The failure record. -/
def SameRecord (s t : State) : Prop := t.halt = s.halt ∧ t.fkind = s.fkind ∧ t.fop = s.fop ∧ t.faddr = s.faddr

/-- The random source and the host's schedule, the model's own fields. -/
def SameOracle (s t : State) : Prop := t.rng = s.rng ∧ t.schedule = s.schedule

/-- What an instruction that changes only general registers of the list, `I`, `DT` or `pc` leaves alone: the other registers,
`sp`, display, memory, failure record, random source and schedule. -/
structure RegisterShape (except : List Nibble) (s t : State) : Prop where
  regs : SameRegs except s t
  sp : t.sp = s.sp
  display : SameDisplay s t
  bytes : SameBytes s t
  record : SameRecord s t
  oracle : SameOracle s t

/-- The frame of an instruction that writes the listed general registers only and falls through: the next instruction is the
sequential one (10_state.md R25), and nothing else changes. -/
structure WritesRegs (except : List Nibble) (s t : State) : Prop where
  shape : RegisterShape except s t
  pc : t.pc = s.pc + 2
  index : t.I = s.I
  timer : t.DT = s.DT

/-- What an instruction that stores the `len` bytes from `base` on leaves alone: every other byte, every general register, `I`,
`DT`, the display, failure record, random source and schedule. (`pc` and `sp` are for the statement to say.) -/
structure StoreShape (base len : Nat) (s t : State) : Prop where
  bytes : SameBytesOutside base len s t
  regs : SameRegs [] s t
  index : t.I = s.I
  timer : t.DT = s.DT
  display : SameDisplay s t
  record : SameRecord s t
  oracle : SameOracle s t

/-- What a display instruction leaves alone: every register outside the list, `I`, `sp`, `DT`, memory, failure record, random
source and schedule; it falls through. -/
structure DisplayShape (except : List Nibble) (s t : State) : Prop where
  regs : SameRegs except s t
  pc : t.pc = s.pc + 2
  index : t.I = s.I
  sp : t.sp = s.sp
  timer : t.DT = s.DT
  bytes : SameBytes s t
  record : SameRecord s t
  oracle : SameOracle s t

/-- The failure entry from `s` (60_exceptions.md R186): the record is written, `pc` is the address of the failing instruction,
and everything else is as it was before the Step. -/
structure Failed (k : FailureKind) (op : Word) (s t : State) : Prop where
  halt : t.halt = true
  fkind : t.fkind = k
  fop : t.fop = op
  faddr : t.faddr = s.pc
  pc : t.pc = s.pc
  shape : SameRegs [] s t ∧ SameDisplay s t ∧ SameBytes s t ∧ SameOracle s t
  others : t.I = s.I ∧ t.sp = s.sp ∧ t.DT = s.DT

/-! ## The sprite, as a set of cells -/

/-- The sprite of `n` bytes at `base`, placed at column `x0` and row `y0`, has a 1 bit on the cell at row `r`, column `c`: bit 7 of
a byte is its leftmost pixel and both axes wrap (45_display.md R161, R162, R163). -/
def SpriteCovers (m : Memory) (base x0 y0 n : Nat) (r : Fin 32) (c : Fin 64) : Prop :=
  ∃ row col, row < n ∧ col < 8 ∧ (y0 + row) % 32 = r.val ∧ (x0 + col) % 64 = c.val ∧
    (readByte m (base + row)).getLsbD (7 - col) = true

/-- The cells of the sprite that `DRW Vx,Vy,n` draws in the state `s`. -/
def DrawCovers (s : State) (x y n : Nibble) (r : Fin 32) (c : Fin 64) : Prop :=
  SpriteCovers s.mem (indexAddr s) (getV s x).toNat (getV s y).toNat n.toNat r c

/-! ## Destination registers -/

/-- The general registers an instruction may write: its named destination and VF where the rule gives it a flag
(10_state.md R22). -/
def writtenRegs : Instr → List Nibble
  | .movImm x _ | .addImm x _ | .movReg x _ | .orReg x _ | .andReg x _ | .xorReg x _ | .rsubReg x _ | .rnd x _
  | .movFromDT x => [x]
  | .addReg x _ | .subReg x _ | .shr x | .shl x => [x, vf]
  | .drw _ _ _ => [vf]
  | .ld x => (List.range (regCount x)).map (BitVec.ofNat 4)
  | .cls | .ret | .jmp _ | .call _ | .skeImm _ _ | .skneImm _ _ | .skeReg _ _ | .skneReg _ _ | .movI _ | .jmpV0 _
  | .movToDT _ | .addI _ | .font _ | .bcd _ | .str _ => []

/-! ## Runs -/

/-- What a list of the host's events does, in order (00_scope.md R9). -/
def runEvents : List Event → State → Host.Outcome State Fault Refusal
  | [], s => .next s
  | e :: es, s =>
    match applyEvent e s with
    | .next t => runEvents es t
    | .fault f => .fault f
    | .refused r => .refused r

/-- A state of a good run: no failure is recorded. A state that is not running is the abnormal end of a run, until a Reset
(60_exceptions.md R186, R187); that a failure, DecodeFailure included, ends a run abnormally is the spec's offer and the model's
choice (70_reset_and_hazards.md R219; D28; DESIGN CHOICE, log 23). -/
def Running (s : State) : Prop := s.halt = false

/-- The normal end of a run: the block is running and has reached a fixed point of Step, as a jump to its own address does. The
spec leaves to the model what counts as the end and offers this one (70_reset_and_hazards.md R219; D28; DESIGN CHOICE, log 23).
It is a notion for claims: the machine has no halt instruction, and `step` goes on. -/
def Completed (s : State) : Prop := Running s ∧ stepEvent s = .next s

end Sys2Proof.Machine
end

