-- ==== Sys2Proof/Certificates/Slice0/Obligations.lean ====
section
/-! DEFINITION. The statements for the provers. Frames and the invariant are those of Sys2Proof/Safety.lean. `exec i s` takes the
state before the Step's advance of `pc` (log 17), so `s.pc` is the fetch address `a` of the rules and `s.pc + 2` is the address
after the instruction. -/

open Sys2Proof Sys2Proof.Machine

/-! ## Encoding (30_encoding.md). Every encoding is the spec's decision D1 (log 4). -/

/-- Decoding the two bytes of any instruction, whatever follows them, gives the instruction and the bytes after it: no operand
bit of an encoding is dropped, and every instruction is 2 bytes long (R80, R84, R90; D1). -/
def Obligations.DecodeOfEncodeIsInstruction : Prop :=
  ∀ (i : Instr) (rest : List Byte), decodeBytes (encodeBytes i ++ rest) = .instr i rest

/-- A word that decodes is the encoding of its instruction, but for nibble 2 of the two shifts, which is ignored (R84, R87;
D1, D3). -/
def Obligations.DecodedWordReencodes : Prop :=
  ∀ (w : Word) (i : Instr), decode w = some i →
    ((∀ x, i ≠ .shr x ∧ i ≠ .shl x) → encode i = w) ∧
    (∀ x, i = .shr x ∨ i = .shl x → encode i = w &&& 0xFF0F)

/-- The decoder answers an instruction exactly for the words that some row of the opcode map holds (R84, R85, R88; D1, D2). -/
def Obligations.DecodeAnswersExactlyTheTable : Prop :=
  ∀ w : Word, (decode w).isSome = wordWellFormed w

/-- No word lies in two rows of the opcode map, so the order of the rows does not matter (R85, a derivation of the spec's). -/
def Obligations.OpcodeRowsAreDisjoint : Prop :=
  ∀ (w : Word) (r r' : OpcodeRow), r ∈ opcodeRows → r' ∈ opcodeRows → r.holds w = true → r'.holds w = true → r = r'

/-- Words written out from the patterns of R84 decode to their instructions, one of each family, and words of 95_test_vectors.md
2.1 do not decode (D1, D2). -/
def Obligations.WordsOfTheMapDecode : Prop :=
  decode 0x00E0 = some .cls ∧ decode 0x2345 = some (.call 0x345) ∧ decode 0x6C5D = some (.movImm 0xC 0x5D) ∧
  decode 0x8BC5 = some (.subReg 0xB 0xC) ∧ decode 0x9120 = some (.skneReg 1 2) ∧ decode 0xD125 = some (.drw 1 2 5) ∧
  decode 0xF533 = some (.bcd 5) ∧ decode 0x5121 = none ∧ decode 0x8128 = none ∧ decode 0xE19E = none ∧ decode 0xFFFF = none

/-- Nibble 2 of a shift word is ignored: all 16 values decode to the same instruction (R87; D3, log 13). -/
def Obligations.ShiftsIgnoreNibbleTwo : Prop :=
  ∀ w : Word, (w &&& 0xF00F = 0x8006 → decode w = some (.shr (xField w))) ∧
    (w &&& 0xF00F = 0x800E → decode w = some (.shl (xField w)))

/-! ## The Step (40_step_cycle.md) -/

/-- A step at a word that decodes runs exactly that instruction: `exec` of it on the same state, with nothing around it but the
consumption of a scheduled Step (R102, R103, R105; the schedule is the model's own, log 1). -/
def Obligations.StepRunsDecodedInstruction : Prop :=
  ∀ (s : State) (i : Instr), s.halt = false → s.pc.toNat ≤ 4094 → decode (readWord s.mem s.pc.toNat) = some i →
    (s.schedule = [] → step s = exec i s) ∧
    (∀ rest, s.schedule = .step :: rest → step s = exec i { s with schedule := rest })

/-- One step performs the first event of the host's schedule, whichever of the three it is, halted or not, and takes it off the
schedule; with none listed it is a Step (R9; the schedule is the model's own form of the host's order, log 1). -/
def Obligations.StepPerformsScheduledEvent : Prop :=
  ∀ s : State, (s.schedule = [] → step s = applyEvent .step s) ∧
    ∀ (e : Event) (rest : List Event), s.schedule = e :: rest → step s = applyEvent e { s with schedule := rest }

/-- The fetch reads the big-endian word at `pc`, at any address up to 4094, and beyond it fails with FetchBounds, `FOP = 0`
(R100; the failure entry by D12). -/
def Obligations.FetchIsBigEndianOrFails : Prop :=
  ∀ s : State, s.schedule = [] → s.halt = false →
    (s.pc.toNat ≤ 4094 → ∃ w : Word,
      w.toNat = (readByte s.mem s.pc.toNat).toNat * 256 + (readByte s.mem (s.pc.toNat + 1)).toNat ∧ step s = executeWord w s) ∧
    (4094 < s.pc.toNat → ∃ t, step s = .next t ∧ Failed .fetchBounds 0 s t)

/-- A fetched word that no row of the opcode map holds halts the block with DecodeFailure, the word and its address recorded
(R88, R102, R181; D2, D12). -/
def Obligations.UndecodableWordHalts : Prop :=
  ∀ s : State, s.schedule = [] → s.halt = false → s.pc.toNat ≤ 4094 →
    wordWellFormed (readWord s.mem s.pc.toNat) = false →
    ∃ t, step s = .next t ∧ Failed .decodeFailure (readWord s.mem s.pc.toNat) s t

/-- A Step on a halted block changes nothing (R104; D13). -/
def Obligations.HaltedBlockIgnoresStep : Prop :=
  ∀ s : State, s.halt = true → stepEvent s = .next s ∧ (s.schedule = [] → step s = .next s)

/-- Once a failure is recorded, no sequence of Steps and Ticks changes anything but the timer (R33, R104, R187, R195; D12, D13). -/
def Obligations.FailureLastsUntilReset : Prop :=
  ∀ (es : List Event) (s t : State), s.halt = true → (∀ prog, Event.reset prog ∉ es) → runEvents es s = .next t →
    t = { s with DT := t.DT }

/-- A Step of a running block has exactly two kinds of outcome: it completes by the rule of the instruction fetched, the block
still running, or it raises one failure of R180 (not LoadFailure, which only Reset raises) and the block is halted (R10). The
failure entry's frame is that of R186 (D12, log 20). -/
def Obligations.StepCompletesOrFails : Prop :=
  ∀ s : State, s.halt = false →
    (∃ w i t, fetch s = some w ∧ decode w = some i ∧ stepEvent s = exec i s ∧ stepEvent s = .next t ∧ t.halt = false) ∨
    (∃ k op t, k ≠ .noFailure ∧ k ≠ .loadFailure ∧ stepEvent s = .next t ∧ Failed k op s t)

/-- A failing Step writes the failure record and nothing else: `pc`, registers, memory and display are as before the Step,
`FADDR` is the address of the failing instruction and `FOP` the word fetched there, or 0 when the fetch itself failed
(R103, R180, R186; D12, 90_conflicts.md C9). -/
def Obligations.FailingStepKeepsState : Prop :=
  ∀ s t : State, s.halt = false → stepEvent s = .next t → t.halt = true →
    ∃ k op, Failed k op s t ∧ ((k = .fetchBounds ∧ fetch s = none ∧ op = 0) ∨ (k ≠ .fetchBounds ∧ fetch s = some op))

/-- Every event answers a next state, in every state: nothing faults and nothing is refused (R9, R10; log 7). -/
def Obligations.EveryStepAnswersNextState : Prop :=
  ∀ s : State, (∃ t, step s = .next t) ∧ ∀ e : Event, ∃ t, applyEvent e s = .next t

/-- A word placed where the next fetch reads it is the word the next step executes (20_memory.md R65; log 18). -/
def Obligations.PlacedWordIsExecuted : Prop :=
  ∀ (s : State) (w : Word), s.pc.toNat ≤ 4094 →
    fetch (s.withFetchWord 16 w.toNat) = some w ∧
    step (s.withFetchWord 16 w.toNat) = executeWord w (s.withFetchWord 16 w.toNat)

/-! ## Jumps, call, return (41_jumps_calls.md) -/

/-- `JMP addr`: words 1nnn; `pc` becomes the zero-extended address and nothing else changes; a jump to its own address leaves the
whole state as it was (R110; the encoding is D1, log 4). -/
def Obligations.JumpLoadsAddress : Prop :=
  (∀ w : Word, w &&& 0xF000 = 0x1000 → decode w = some (.jmp (addrField w))) ∧
  ∀ (addr : Addr) (s : State),
    (∃ t, exec (.jmp addr) s = .next t ∧ t.pc.toNat = addr.toNat ∧ RegisterShape [] s t ∧ t.I = s.I ∧ t.DT = s.DT) ∧
    (addr.toNat = s.pc.toNat → exec (.jmp addr) s = .next s)

/-- `JMP V0,addr`: `pc` becomes `addr + V[0]`, not reduced (R111; D32). -/
def Obligations.JumpV0AddsRegister : Prop :=
  ∀ (addr : Addr) (s : State), ∃ t, exec (.jmpV0 addr) s = .next t ∧
    t.pc.toNat = addr.toNat + (getV s 0).toNat ∧ RegisterShape [] s t ∧ t.I = s.I ∧ t.DT = s.DT

/-- `CALL addr` with room on the stack: the address of the next instruction is stored big-endian at `sp - 2`, `sp` goes down by 2
and `pc` is the address; nothing else changes (R26, R112; D7). -/
def Obligations.CallPushesReturnAddress : Prop :=
  ∀ (addr : Addr) (s : State), 0xFE2 ≤ s.sp.toNat → s.sp.toNat ≤ 0x1000 →
    ∃ t, exec (.call addr) s = .next t ∧ t.pc.toNat = addr.toNat ∧ t.sp.toNat = s.sp.toNat - 2 ∧
      (readByte t.mem (pushAddr s)).toNat = (s.pc + 2).toNat / 256 ∧
      (readByte t.mem (pushAddr s + 1)).toNat = (s.pc + 2).toNat % 256 ∧
      StoreShape (pushAddr s) 2 s t

/-- `RET` with an address on the stack: `pc` is the big-endian word at `sp` and `sp` goes up by 2; nothing else changes (R26,
R113; D7). -/
def Obligations.ReturnPopsAddress : Prop :=
  ∀ s : State, s.sp.toNat ≤ 0xFFE →
    ∃ t, exec .ret s = .next t ∧
      t.pc.toNat = (readByte s.mem (popAddr s)).toNat * 256 + (readByte s.mem (popAddr s + 1)).toNat ∧
      t.sp.toNat = s.sp.toNat + 2 ∧ RegisterShape [] { s with sp := s.sp + 2 } t ∧ t.I = s.I ∧ t.DT = s.DT

/-- The stack's failures: `CALL` with 16 addresses stacked raises StackOverflow, `RET` with none raises StackUnderflow, and
nothing is written (R112, R113, R183; D7, D12, D33). For an `sp` outside the stack region, which no run reaches (R27), the checked
accesses of the rules raise DataBounds (log 16). -/
def Obligations.StackFailures : Prop :=
  ∀ (addr : Addr) (s : State),
    (s.sp.toNat < 0xFE2 → ∃ t, exec (.call addr) s = .next t ∧ Failed .stackOverflow (encode (.call addr)) s t) ∧
    (0x1000 < s.sp.toNat → ∃ t, exec (.call addr) s = .next t ∧ Failed .dataBounds (encode (.call addr)) s t) ∧
    (0x1000 ≤ s.sp.toNat → ∃ t, exec .ret s = .next t ∧ Failed .stackUnderflow 0x00EE s t) ∧
    (s.sp.toNat = 0xFFF → ∃ t, exec .ret s = .next t ∧ Failed .dataBounds 0x00EE s t)

/-- `CALL` then `RET` restores `pc` to the instruction after the `CALL`, and `sp` (R112, R113; 95_test_vectors.md S8). -/
def Obligations.CallThenReturnComesBack : Prop :=
  ∀ (addr : Addr) (s : State), 0xFE2 ≤ s.sp.toNat → s.sp.toNat ≤ 0x1000 →
    ∃ t u, exec (.call addr) s = .next t ∧ exec .ret t = .next u ∧ u.pc = s.pc + 2 ∧ u.sp = s.sp

/-! ## Moves (42_moves.md) -/

/-- `MOV Vx,kk` (words 6xkk), `MOV Vx,Vy` (8xy0) and `MOV Vx,DT` (Fx07): the register takes the immediate, the register, the
timer; nothing else changes but `pc` (R120, R121, R124; the encodings are D1, log 4). -/
def Obligations.MovesLoadTheRegister : Prop :=
  (∀ w : Word, (w &&& 0xF000 = 0x6000 → decode w = some (.movImm (xField w) (kkField w))) ∧
    (w &&& 0xF00F = 0x8000 → decode w = some (.movReg (xField w) (yField w))) ∧
    (w &&& 0xF0FF = 0xF007 → decode w = some (.movFromDT (xField w)))) ∧
  ∀ (x y : Nibble) (kk : Byte) (s : State),
    (∃ t, exec (.movImm x kk) s = .next t ∧ getV t x = kk ∧ WritesRegs [x] s t) ∧
    (∃ t, exec (.movReg x y) s = .next t ∧ getV t x = getV s y ∧ WritesRegs [x] s t) ∧
    (∃ t, exec (.movFromDT x) s = .next t ∧ getV t x = s.DT ∧ WritesRegs [x] s t)

/-- `MOV I,addr` (words Annn): `I` takes the zero-extended address; nothing else changes but `pc`. A value of `I` above 4095 arises
in a Step only through `ADD I,Vx` (R122; the encoding is D1, log 4). -/
def Obligations.MoveLoadsIndex : Prop :=
  (∀ w : Word, w &&& 0xF000 = 0xA000 → decode w = some (.movI (addrField w))) ∧
  (∀ (addr : Addr) (s : State), ∃ t, exec (.movI addr) s = .next t ∧ t.I.toNat = addr.toNat ∧
    t.pc = s.pc + 2 ∧ t.DT = s.DT ∧ RegisterShape [] s t) ∧
  ∀ s t : State, stepEvent s = .next t → t.I ≠ s.I → 4095 < t.I.toNat →
    ∃ w x, fetch s = some w ∧ decode w = some (.addI x)

/-- A Step that changes `I` leaves in it the address of a `MOV I,addr`, the sum of an `ADD I,Vx`, or the address of one of the 16
glyphs by a `FONT Vx`: `MOV I,addr` is the only way to an arbitrary address (R23, R122, R132, R173; the sum's modulus by D35, log
15, the glyph by D21, log 12). -/
def Obligations.IndexChangesInThreeWays : Prop :=
  ∀ s t : State, stepEvent s = .next t → t.I ≠ s.I → ∃ w i, fetch s = some w ∧ decode w = some i ∧
    ((∃ addr, i = .movI addr ∧ t.I.toNat = addr.toNat) ∨
      (∃ x, i = .addI x ∧ t.I.toNat = (s.I.toNat + (getV s x).toNat) % 65536) ∨
      ∃ x d, i = .font x ∧ d < 16 ∧ t.I.toNat = d * 5)

/-- `MOV DT,Vx` (words Fx15): the timer takes the register, whatever it held; nothing else changes but `pc`; a Tick that comes
after it decrements the new value (R123; the encoding is D1, log 4). -/
def Obligations.MoveSetsTimer : Prop :=
  (∀ w : Word, w &&& 0xF0FF = 0xF015 → decode w = some (.movToDT (xField w))) ∧
  ∀ (x : Nibble) (s : State), ∃ t, exec (.movToDT x) s = .next t ∧ t.DT = getV s x ∧
    t.pc = s.pc + 2 ∧ t.I = s.I ∧ RegisterShape [] s t ∧ (tick t).DT.toNat = (getV s x).toNat - 1

/-! ## Arithmetic, logic, shifts, random (43_alu.md) -/

/-- `ADD Vx,kk`: the sum modulo 256, no flag (R130; D19). -/
def Obligations.AddImmediateWraps : Prop :=
  ∀ (x : Nibble) (kk : Byte) (s : State), ∃ t, exec (.addImm x kk) s = .next t ∧
    (getV t x).toNat = ((getV s x).toNat + kk.toNat) % 256 ∧ WritesRegs [x] s t

/-- `ADD Vx,Vy`: the sum modulo 256 to `V[x]`, then the carry to VF; with `x = 0xF` the carry stays (R131; D18, log 10). -/
def Obligations.AddRegisterSetsCarry : Prop :=
  ∀ (x y : Nibble) (s : State), ∃ t, exec (.addReg x y) s = .next t ∧
    (x ≠ vf → (getV t x).toNat = ((getV s x).toNat + (getV s y).toNat) % 256) ∧
    (getV t vf).toNat = ((getV s x).toNat + (getV s y).toNat) / 256 ∧ WritesRegs [x, vf] s t

/-- `ADD I,Vx`: the sum modulo 65536, no flag (R132; D19, D35, log 15). -/
def Obligations.AddIndexWraps : Prop :=
  ∀ (x : Nibble) (s : State), ∃ t, exec (.addI x) s = .next t ∧
    t.I.toNat = (s.I.toNat + (getV s x).toNat) % 65536 ∧ t.pc = s.pc + 2 ∧ t.DT = s.DT ∧ RegisterShape [] s t

/-- `SUB Vx,Vy`: the difference modulo 256 to `V[x]`, then NOT borrow to VF, 1 when `Vx >= Vy`; with `x = 0xF` the flag stays
(R133; D18, D20, log 10). -/
def Obligations.SubRegisterSetsNotBorrow : Prop :=
  ∀ (x y : Nibble) (s : State), ∃ t, exec (.subReg x y) s = .next t ∧
    (x ≠ vf → (getV t x).toNat = ((getV s x).toNat + 256 - (getV s y).toNat) % 256) ∧
    getV t vf = (if (getV s y).toNat ≤ (getV s x).toNat then 1 else 0) ∧ WritesRegs [x, vf] s t

/-- `RSUB Vx,Vy`: the reversed difference modulo 256, VF unchanged unless it is the destination (R134; D19, log 11). -/
def Obligations.ReversedSubtractLeavesFlag : Prop :=
  ∀ (x y : Nibble) (s : State), ∃ t, exec (.rsubReg x y) s = .next t ∧
    (getV t x).toNat = ((getV s y).toNat + 256 - (getV s x).toNat) % 256 ∧ WritesRegs [x] s t

/-- `OR`, `AND`, `XOR`: bit by bit into `V[x]`, no flag (R135, R136, R137; D19). -/
def Obligations.LogicIsBitwise : Prop :=
  ∀ (x y : Nibble) (s : State),
    (∃ t, exec (.orReg x y) s = .next t ∧ WritesRegs [x] s t ∧
      ∀ b, (getV t x).getLsbD b = ((getV s x).getLsbD b || (getV s y).getLsbD b)) ∧
    (∃ t, exec (.andReg x y) s = .next t ∧ WritesRegs [x] s t ∧
      ∀ b, (getV t x).getLsbD b = ((getV s x).getLsbD b && (getV s y).getLsbD b)) ∧
    (∃ t, exec (.xorReg x y) s = .next t ∧ WritesRegs [x] s t ∧
      ∀ b, (getV t x).getLsbD b = ((getV s x).getLsbD b != (getV s y).getLsbD b))

/-- `SHR Vx`: bit 0 to VF, then the halved value to `V[x]`; with `x = 0xF` VF ends as 0 (R138; D18, log 10). -/
def Obligations.ShiftRightHalves : Prop :=
  ∀ (x : Nibble) (s : State), ∃ t, exec (.shr x) s = .next t ∧
    (x ≠ vf → (getV t x).toNat = (getV s x).toNat / 2 ∧ (getV t vf).toNat = (getV s x).toNat % 2) ∧
    (x = vf → getV t vf = 0) ∧ WritesRegs [x, vf] s t

/-- `SHL Vx`: bit 7 to VF, then twice the value modulo 256 to `V[x]`; with `x = 0xF` VF ends as 2 if its bit 7 was 1, else 0
(R139; D18, log 10). -/
def Obligations.ShiftLeftDoubles : Prop :=
  ∀ (x : Nibble) (s : State), ∃ t, exec (.shl x) s = .next t ∧
    (x ≠ vf → (getV t x).toNat = 2 * (getV s x).toNat % 256 ∧ (getV t vf).toNat = (getV s x).toNat / 128) ∧
    (x = vf → getV t vf = (if 128 ≤ (getV s vf).toNat then 2 else 0)) ∧ WritesRegs [x, vf] s t

/-- `RND Vx,kk`: some value from 0 to `kk` inclusive, 0 when `kk` is 0; no flag; one draw is made (R140; D23; the free value is
log 2, and this holds whatever it is). -/
def Obligations.RandomStaysInRange : Prop :=
  ∀ (x : Nibble) (kk : Byte) (s : State), ∃ t, exec (.rnd x kk) s = .next t ∧
    (getV t x).toNat ≤ kk.toNat ∧ (kk = 0 → getV t x = 0) ∧
    SameRegs [x] s t ∧ t.pc = s.pc + 2 ∧ t.I = s.I ∧ t.sp = s.sp ∧ t.DT = s.DT ∧ SameDisplay s t ∧ SameBytes s t ∧
    SameRecord s t ∧ t.schedule = s.schedule ∧ t.rng = s.rng + 1

/-- Every value from 0 to `kk` is what `RND Vx,kk` leaves for some free byte, and the meaning is that of the next free byte: the
bound is no mask (R140, U1; D23; the free value's form is the model's, log 2). -/
def Obligations.RandomAdmitsWholeRange : Prop :=
  ∀ (x : Nibble) (kk r : Byte) (s : State), r.toNat ≤ kk.toNat →
    (∃ free, getV (rndWith free x kk s) x = r) ∧ exec (.rnd x kk) s = .next (rndWith (Config.freeDraw s.rng) x kk s)

/-! ## Skips (44_skips.md) -/

/-- `SKE Vx,kk` (words 3xkk) and `SKNE Vx,kk` (4xkk): 2 more than the advance when the register equals, differs from, the
immediate; nothing else changes (R151, R153; the encodings are D1, log 4). -/
def Obligations.SkipOnImmediate : Prop :=
  (∀ w : Word, (w &&& 0xF000 = 0x3000 → decode w = some (.skeImm (xField w) (kkField w))) ∧
    (w &&& 0xF000 = 0x4000 → decode w = some (.skneImm (xField w) (kkField w)))) ∧
  ∀ (x : Nibble) (kk : Byte) (s : State),
    (∃ t, exec (.skeImm x kk) s = .next t ∧ t.pc = (if getV s x = kk then s.pc + 4 else s.pc + 2) ∧
      RegisterShape [] s t ∧ t.I = s.I ∧ t.DT = s.DT) ∧
    (∃ t, exec (.skneImm x kk) s = .next t ∧ t.pc = (if getV s x = kk then s.pc + 2 else s.pc + 4) ∧
      RegisterShape [] s t ∧ t.I = s.I ∧ t.DT = s.DT)

/-- `SKE Vx,Vy` (words 5xy0) and `SKNE Vx,Vy` (9xy0), nibble 3 being 0: the same on two registers (R152, R154; the encodings
are D1, log 4). -/
def Obligations.SkipOnRegister : Prop :=
  (∀ w : Word, (w &&& 0xF00F = 0x5000 → decode w = some (.skeReg (xField w) (yField w))) ∧
    (w &&& 0xF00F = 0x9000 → decode w = some (.skneReg (xField w) (yField w))) ∧
    (w &&& 0xF000 = 0x5000 ∨ w &&& 0xF000 = 0x9000 → nField w ≠ 0 → decode w = none)) ∧
  ∀ (x y : Nibble) (s : State),
    (∃ t, exec (.skeReg x y) s = .next t ∧ t.pc = (if getV s x = getV s y then s.pc + 4 else s.pc + 2) ∧
      RegisterShape [] s t ∧ t.I = s.I ∧ t.DT = s.DT) ∧
    (∃ t, exec (.skneReg x y) s = .next t ∧ t.pc = (if getV s x = getV s y then s.pc + 2 else s.pc + 4) ∧
      RegisterShape [] s t ∧ t.I = s.I ∧ t.DT = s.DT)

/-! ## Display (45_display.md) -/

/-- `CLS` (word 00E0): every cell unlit, nothing else changes but `pc`, VF included; and any `DRW` of a
sprite in memory, or of height 0 whatever `I` holds, then reports no collision (R160, R161, R164 (a); the encoding is D1, log 4;
the sprite of height 0 is D15, log 14). -/
def Obligations.ClearUnlightsEveryCell : Prop :=
  decode 0x00E0 = some .cls ∧
  ∀ s : State, ∃ t, exec .cls s = .next t ∧ (∀ r c, getPx t.Px r c = false) ∧ DisplayShape [] s t ∧
    ∀ x y n : Nibble, n = 0 ∨ indexAddr s + n.toNat ≤ 4096 → ∃ u, exec (.drw x y n) t = .next u ∧ getV u vf = 0

/-- `DRW Vx,Vy,n` with the sprite in memory (or `n = 0`, whatever `I` holds): exactly the sprite's cells toggle, and VF is 1 if
one of them was lit before, else 0 (R161, R162, R163; D15, D16, D17, log 14). -/
def Obligations.DrawTogglesTheSprite : Prop :=
  ∀ (x y n : Nibble) (s : State), n = 0 ∨ indexAddr s + n.toNat ≤ 4096 →
    ∃ t, exec (.drw x y n) s = .next t ∧
      (∀ r c, DrawCovers s x y n r c → getPx t.Px r c = !getPx s.Px r c) ∧
      (∀ r c, ¬ DrawCovers s x y n r c → getPx t.Px r c = getPx s.Px r c) ∧
      ((∃ r c, DrawCovers s x y n r c ∧ getPx s.Px r c = true) → getV t vf = 1) ∧
      ((∀ r c, DrawCovers s x y n r c → getPx s.Px r c = false) → getV t vf = 0) ∧
      DisplayShape [vf] s t

/-- Two identical draws restore the display, and the second reports a collision exactly when the first left one of the sprite's
cells lit (R164 (b), from R161; which cells a sprite covers and the sprite of height 0 are D15, D16, D17, log 14). Neither
coordinate is VF, which the first draw overwrites. -/
def Obligations.DrawTwiceRestoresDisplay : Prop :=
  ∀ (x y n : Nibble) (s : State), x ≠ vf → y ≠ vf → n = 0 ∨ indexAddr s + n.toNat ≤ 4096 →
    ∃ t u, exec (.drw x y n) s = .next t ∧ exec (.drw x y n) t = .next u ∧ SameDisplay s u ∧
      (getV u vf = 1 ↔ ∃ r c, DrawCovers s x y n r c ∧ getPx t.Px r c = true)

/-! ## Memory instructions (46_memory_ops.md) -/

/-- `BCD Vx` above the font and inside memory: hundreds, tens and ones to `M[I]`, `M[I+1]`, `M[I+2]`; nothing else changes but `pc`
(R170; `I` unchanged by D22). -/
def Obligations.BcdStoresDigits : Prop :=
  ∀ (x : Nibble) (s : State), 80 ≤ indexAddr s → indexAddr s + 3 ≤ 4096 →
    ∃ t, exec (.bcd x) s = .next t ∧
      (readByte t.mem (indexAddr s)).toNat = (getV s x).toNat / 100 ∧
      (readByte t.mem (indexAddr s + 1)).toNat = (getV s x).toNat / 10 % 10 ∧
      (readByte t.mem (indexAddr s + 2)).toNat = (getV s x).toNat % 10 ∧
      StoreShape (indexAddr s) 3 s t ∧ t.pc = s.pc + 2 ∧ t.sp = s.sp

/-- `STR [I],Vx` above the font and inside memory: `V[0]..V[x]` to `M[I]..M[I+x]`; nothing else changes but `pc` (R172; D22). -/
def Obligations.StoreWritesRegisters : Prop :=
  ∀ (x : Nibble) (s : State), 80 ≤ indexAddr s → indexAddr s + x.toNat ≤ 4095 →
    ∃ t, exec (.str x) s = .next t ∧
      (∀ r : Nibble, r.toNat ≤ x.toNat → readByte t.mem (indexAddr s + r.toNat) = getV s r) ∧
      StoreShape (indexAddr s) (x.toNat + 1) s t ∧ t.pc = s.pc + 2 ∧ t.sp = s.sp

/-- `LD Vx,[I]` inside memory: `V[0]..V[x]` from `M[I]..M[I+x]`, the registers above `x` and everything else unchanged but `pc`
(R171; D22). -/
def Obligations.LoadReadsRegisters : Prop :=
  ∀ (x : Nibble) (s : State), indexAddr s + x.toNat ≤ 4095 →
    ∃ t, exec (.ld x) s = .next t ∧
      (∀ r : Nibble, r.toNat ≤ x.toNat → getV t r = readByte s.mem (indexAddr s + r.toNat)) ∧
      (∀ r : Nibble, x.toNat < r.toNat → getV t r = getV s r) ∧
      t.pc = s.pc + 2 ∧ t.I = s.I ∧ t.sp = s.sp ∧ t.DT = s.DT ∧ SameDisplay s t ∧ SameBytes s t ∧ SameRecord s t ∧ SameOracle s t

/-- A store that would leave memory raises DataBounds and one that touches the font raises FontWrite, `BCD` and `STR` alike, and
nothing is written; addresses do not wrap (R58, R59, R60, R170, R172; D9, D12, D14). -/
def Obligations.StoresFailOutsideWritableMemory : Prop :=
  ∀ (x : Nibble) (s : State),
    (4093 < indexAddr s → ∃ t, exec (.bcd x) s = .next t ∧ Failed .dataBounds (encode (.bcd x)) s t) ∧
    (indexAddr s ≤ 79 → ∃ t, exec (.bcd x) s = .next t ∧ Failed .fontWrite (encode (.bcd x)) s t) ∧
    (4095 < indexAddr s + x.toNat → ∃ t, exec (.str x) s = .next t ∧ Failed .dataBounds (encode (.str x)) s t) ∧
    (indexAddr s ≤ 79 → ∃ t, exec (.str x) s = .next t ∧ Failed .fontWrite (encode (.str x)) s t)

/-- A read that would leave memory raises DataBounds, `LD` and `DRW` alike, and no register or cell changes (R59, R60, R161, R171;
D9, D12). -/
def Obligations.ReadsFailOutsideMemory : Prop :=
  ∀ (x y n : Nibble) (s : State),
    (4095 < indexAddr s + x.toNat → ∃ t, exec (.ld x) s = .next t ∧ Failed .dataBounds (encode (.ld x)) s t) ∧
    (n ≠ 0 → 4096 < indexAddr s + n.toNat → ∃ t, exec (.drw x y n) s = .next t ∧ Failed .dataBounds (encode (.drw x y n)) s t)

/-- `STR [I],Vx`, then anything that leaves `I` and memory, then `LD Vx,[I]` restores `V[0]..V[x]` (R171, R172; 95_test_vectors.md
S6; D22). -/
def Obligations.StoreThenLoadRestores : Prop :=
  ∀ (x : Nibble) (s : State), 80 ≤ indexAddr s → indexAddr s + x.toNat ≤ 4095 →
    ∃ t, exec (.str x) s = .next t ∧ ∀ u, SameBytes t u → u.I = t.I →
      ∃ v, exec (.ld x) u = .next v ∧ ∀ r : Nibble, r.toNat ≤ x.toNat → getV v r = getV s r

/-- `FONT Vx`: `I` is five times the low nibble, so with the font in place it points at the five bytes of that digit's glyph;
nothing else changes but `pc` (R31, R173; D21, 90_conflicts.md C1, log 12). -/
def Obligations.FontPointsAtGlyph : Prop :=
  ∀ (x : Nibble) (s : State), ∃ t, exec (.font x) s = .next t ∧ t.I.toNat = (getV s x).toNat % 16 * 5 ∧
    t.pc = s.pc + 2 ∧ t.DT = s.DT ∧ RegisterShape [] s t ∧
    (FontIntact s → ∀ k, k < 5 → readByte t.mem (t.I.toNat + k) = fontTable.getD ((getV s x).toNat % 16 * 5 + k) 0)

/-! ## Tick and Reset (60_exceptions.md section 8, 70_reset_and_hazards.md section 1) -/

/-- Tick takes 1 from the timer, floored at 0, halted or not, and changes nothing else; `k` Ticks take `k` (R193, R195; D13). -/
def Obligations.TicksCountDownToZero : Prop :=
  ∀ (k : Nat) (s : State), ∃ t, runEvents (List.replicate k .tick) s = .next t ∧
    t.DT.toNat = s.DT.toNat - k ∧ t = { s with DT := t.DT }

/-- Reset with an image that fits: the font at 0..79, the image from 0x200 on, zero elsewhere, `pc = 0x200`, `sp = 0x1000`, every
register and cell zero, no failure recorded; the event leaves exactly that in any state, a halted one included (R35, R187, R210;
the numbers by D4, D7, D11; the random source and the schedule, which it carries over, are the model's own, log 1, log 2). -/
def Obligations.ResetLoadsImage : Prop :=
  ∀ prog : List Byte, prog.length ≤ 3584 →
    (∀ a, a < 4096 → readByte (resetWith prog).mem a =
      if a < 80 then fontTable.getD a 0 else if 512 ≤ a then prog.getD (a - 512) 0 else 0) ∧
    (resetWith prog).pc = 0x200 ∧ (resetWith prog).sp = 0x1000 ∧ (resetWith prog).I = 0 ∧ (resetWith prog).DT = 0 ∧
    (∀ r, getV (resetWith prog) r = 0) ∧ (∀ r c, getPx (resetWith prog).Px r c = false) ∧
    hostReadRecord (resetWith prog) = (false, 0, 0, 0) ∧
    ∀ s : State, applyEvent (.reset prog) s = .next { resetWith prog with rng := s.rng, schedule := s.schedule }

/-- Reset with a longer image loads no byte of it and leaves the block halted with LoadFailure, the rest at its reset values; in
a run it does so whatever the state was (R185, R210, R211; D27; random source and schedule are the model's own, log 1, log 2). -/
def Obligations.ResetRejectsOversizeImage : Prop :=
  ∀ (prog : List Byte) (s : State), 3584 < prog.length →
    resetWith prog = { State.reset with halt := true, fkind := .loadFailure } ∧
    applyEvent (.reset prog) s =
      .next { State.reset with halt := true, fkind := .loadFailure, rng := s.rng, schedule := s.schedule }

/-- The reset state is Reset of the empty image, and its first Step raises DecodeFailure on the word 0x0000 at 0x200 (R35, R210;
D2, D4, D12). -/
def Obligations.EmptyImageFailsAtFirstStep : Prop :=
  State.reset = resetWith [] ∧ ∃ t, step State.reset = .next t ∧ Failed .decodeFailure 0 State.reset t ∧
    hostReadRecord t = (true, 1, 0x0000, 0x0200)

/-! ## Whole-machine rules -/

/-- The invariant holds at reset: the font, `sp` and the record as R27, R31, R33 and R35 have them, and memory in the canonical
form, which is the model's own choice (log 6). -/
def Obligations.InvariantHoldsAtReset : Prop := Inv State.reset

/-- Every step keeps the invariant, from any state that meets it: the font stays intact, `sp` one of its 17 values, and `HALT = 1`
exactly when a failure is recorded (R27, R31, R33, R58; derivations of the spec's, D12, D14); and memory stays in the canonical
form, which is the model's own choice (log 6). -/
def Obligations.InvariantKeptByEveryStep : Prop :=
  ∀ s t : State, Inv s → step s = .next t → Inv t

/-- No Step changes a byte of the font region (R58; D14). -/
def Obligations.FontIsReadOnly : Prop :=
  ∀ s t : State, stepEvent s = .next t → ∀ a, a < 80 → readByte t.mem a = readByte s.mem a

/-- A general register changes in a Step only if the instruction fetched names it as destination or is one of the five that
write VF (R21, R22; D19). -/
def Obligations.RegistersChangeOnlyAsNamed : Prop :=
  ∀ (s t : State) (r : Nibble), stepEvent s = .next t → getV t r ≠ getV s r →
    ∃ w i, fetch s = some w ∧ decode w = some i ∧ r ∈ writtenRegs i

/-- Who writes the rest of the state in a Step: `I` by MOV I, ADD I and FONT, `sp` by CALL and RET, `DT` by MOV DT, the display by
CLS and DRW, memory by CALL, BCD and STR, and the failure record only by the failure entry (the column "written by" of R20; R33,
R105, R164 (d), R186). The draws made, the model's form of the random source (log 2), change by RND only, and the model's own
schedule (log 1) in no Step. -/
def Obligations.StateHasItsWriters : Prop :=
  ∀ s t : State, stepEvent s = .next t →
    (t.I ≠ s.I → ∃ w i, fetch s = some w ∧ decode w = some i ∧ ∃ x addr, i = .movI addr ∨ i = .addI x ∨ i = .font x) ∧
    (t.sp ≠ s.sp → ∃ w i, fetch s = some w ∧ decode w = some i ∧ ∃ addr, i = .call addr ∨ i = .ret) ∧
    (t.DT ≠ s.DT → ∃ w i, fetch s = some w ∧ decode w = some i ∧ ∃ x, i = .movToDT x) ∧
    (t.Px ≠ s.Px → ∃ w i, fetch s = some w ∧ decode w = some i ∧ ∃ x y n, i = .cls ∨ i = .drw x y n) ∧
    (t.mem ≠ s.mem → ∃ w i, fetch s = some w ∧ decode w = some i ∧ ∃ x addr, i = .call addr ∨ i = .bcd x ∨ i = .str x) ∧
    (t.rng ≠ s.rng → ∃ w i, fetch s = some w ∧ decode w = some i ∧ ∃ x kk, i = .rnd x kk) ∧
    (¬ SameRecord s t → ∃ k op, Failed k op s t) ∧
    t.schedule = s.schedule

/-- Jumps, call, return and skips are the only instructions that alter the control flow: a completed Step of any other leaves
`pc` at the fetch address plus 2 (R25). -/
def Obligations.OthersFallThrough : Prop :=
  ∀ (s t : State) (w : Word) (i : Instr), s.halt = false → fetch s = some w → decode w = some i → stepEvent s = .next t →
    t.halt = false →
    (∀ addr x y kk, i ≠ .jmp addr ∧ i ≠ .jmpV0 addr ∧ i ≠ .call addr ∧ i ≠ .ret ∧ i ≠ .skeImm x kk ∧ i ≠ .skneImm x kk ∧
      i ≠ .skeReg x y ∧ i ≠ .skneReg x y) →
    t.pc = s.pc + 2 ∧ t.pc.toNat = s.pc.toNat + 2

/-- A running block whose next instruction is a `JMP` to its own address has completed its run, and no sequence of Steps and Ticks
changes anything but the timer or undoes the completion (R110, R195, R219; that this counts as the end is the model's choice,
D28, log 23). -/
def Obligations.SelfJumpCompletesRun : Prop :=
  ∀ (s : State) (addr : Addr), Running s → s.pc.toNat ≤ 4094 → decode (readWord s.mem s.pc.toNat) = some (.jmp addr) →
    addr.toNat = s.pc.toNat →
    Completed s ∧ ∀ es : List Event, (∀ prog, Event.reset prog ∉ es) →
      ∃ t, runEvents es s = .next t ∧ t = { s with DT := t.DT } ∧ Completed t
end

