-- ==== Sys2Proof/Laws/State.lean ====
section
/-! SUPPORT. One lemma per field of State per update, true by rfl, so that no later proof unfolds a record update. -/

namespace Sys2Proof.Machine

variable (s : State)

/-! ## setV -/

@[simp] theorem setV_V (x : Nibble) (v : Byte) : (setV s x v).V = s.V.set x.toNat v x.isLt := rfl
@[simp] theorem setV_I (x : Nibble) (v : Byte) : (setV s x v).I = s.I := rfl
@[simp] theorem setV_pc (x : Nibble) (v : Byte) : (setV s x v).pc = s.pc := rfl
@[simp] theorem setV_sp (x : Nibble) (v : Byte) : (setV s x v).sp = s.sp := rfl
@[simp] theorem setV_DT (x : Nibble) (v : Byte) : (setV s x v).DT = s.DT := rfl
@[simp] theorem setV_Px (x : Nibble) (v : Byte) : (setV s x v).Px = s.Px := rfl
@[simp] theorem setV_mem (x : Nibble) (v : Byte) : (setV s x v).mem = s.mem := rfl
@[simp] theorem setV_rng (x : Nibble) (v : Byte) : (setV s x v).rng = s.rng := rfl
@[simp] theorem setV_halt (x : Nibble) (v : Byte) : (setV s x v).halt = s.halt := rfl
@[simp] theorem setV_fkind (x : Nibble) (v : Byte) : (setV s x v).fkind = s.fkind := rfl
@[simp] theorem setV_fop (x : Nibble) (v : Byte) : (setV s x v).fop = s.fop := rfl
@[simp] theorem setV_faddr (x : Nibble) (v : Byte) : (setV s x v).faddr = s.faddr := rfl
@[simp] theorem setV_schedule (x : Nibble) (v : Byte) : (setV s x v).schedule = s.schedule := rfl

/-! ## setI -/

@[simp] theorem setI_V (v : Word) : (setI s v).V = s.V := rfl
@[simp] theorem setI_I (v : Word) : (setI s v).I = v := rfl
@[simp] theorem setI_pc (v : Word) : (setI s v).pc = s.pc := rfl
@[simp] theorem setI_sp (v : Word) : (setI s v).sp = s.sp := rfl
@[simp] theorem setI_DT (v : Word) : (setI s v).DT = s.DT := rfl
@[simp] theorem setI_Px (v : Word) : (setI s v).Px = s.Px := rfl
@[simp] theorem setI_mem (v : Word) : (setI s v).mem = s.mem := rfl
@[simp] theorem setI_rng (v : Word) : (setI s v).rng = s.rng := rfl
@[simp] theorem setI_halt (v : Word) : (setI s v).halt = s.halt := rfl
@[simp] theorem setI_fkind (v : Word) : (setI s v).fkind = s.fkind := rfl
@[simp] theorem setI_fop (v : Word) : (setI s v).fop = s.fop := rfl
@[simp] theorem setI_faddr (v : Word) : (setI s v).faddr = s.faddr := rfl
@[simp] theorem setI_schedule (v : Word) : (setI s v).schedule = s.schedule := rfl
@[simp] theorem getV_setI (v : Word) (r : Nibble) : getV (setI s v) r = getV s r := rfl

/-! ## setPc -/

@[simp] theorem setPc_V (v : Word) : (setPc s v).V = s.V := rfl
@[simp] theorem setPc_I (v : Word) : (setPc s v).I = s.I := rfl
@[simp] theorem setPc_pc (v : Word) : (setPc s v).pc = v := rfl
@[simp] theorem setPc_sp (v : Word) : (setPc s v).sp = s.sp := rfl
@[simp] theorem setPc_DT (v : Word) : (setPc s v).DT = s.DT := rfl
@[simp] theorem setPc_Px (v : Word) : (setPc s v).Px = s.Px := rfl
@[simp] theorem setPc_mem (v : Word) : (setPc s v).mem = s.mem := rfl
@[simp] theorem setPc_rng (v : Word) : (setPc s v).rng = s.rng := rfl
@[simp] theorem setPc_halt (v : Word) : (setPc s v).halt = s.halt := rfl
@[simp] theorem setPc_fkind (v : Word) : (setPc s v).fkind = s.fkind := rfl
@[simp] theorem setPc_fop (v : Word) : (setPc s v).fop = s.fop := rfl
@[simp] theorem setPc_faddr (v : Word) : (setPc s v).faddr = s.faddr := rfl
@[simp] theorem setPc_schedule (v : Word) : (setPc s v).schedule = s.schedule := rfl
@[simp] theorem getV_setPc (v : Word) (r : Nibble) : getV (setPc s v) r = getV s r := rfl

/-! ## setSp -/

@[simp] theorem setSp_V (v : Word) : (setSp s v).V = s.V := rfl
@[simp] theorem setSp_I (v : Word) : (setSp s v).I = s.I := rfl
@[simp] theorem setSp_pc (v : Word) : (setSp s v).pc = s.pc := rfl
@[simp] theorem setSp_sp (v : Word) : (setSp s v).sp = v := rfl
@[simp] theorem setSp_DT (v : Word) : (setSp s v).DT = s.DT := rfl
@[simp] theorem setSp_Px (v : Word) : (setSp s v).Px = s.Px := rfl
@[simp] theorem setSp_mem (v : Word) : (setSp s v).mem = s.mem := rfl
@[simp] theorem setSp_rng (v : Word) : (setSp s v).rng = s.rng := rfl
@[simp] theorem setSp_halt (v : Word) : (setSp s v).halt = s.halt := rfl
@[simp] theorem setSp_fkind (v : Word) : (setSp s v).fkind = s.fkind := rfl
@[simp] theorem setSp_fop (v : Word) : (setSp s v).fop = s.fop := rfl
@[simp] theorem setSp_faddr (v : Word) : (setSp s v).faddr = s.faddr := rfl
@[simp] theorem setSp_schedule (v : Word) : (setSp s v).schedule = s.schedule := rfl
@[simp] theorem getV_setSp (v : Word) (r : Nibble) : getV (setSp s v) r = getV s r := rfl

/-! ## setDT -/

@[simp] theorem setDT_V (v : Byte) : (setDT s v).V = s.V := rfl
@[simp] theorem setDT_I (v : Byte) : (setDT s v).I = s.I := rfl
@[simp] theorem setDT_pc (v : Byte) : (setDT s v).pc = s.pc := rfl
@[simp] theorem setDT_sp (v : Byte) : (setDT s v).sp = s.sp := rfl
@[simp] theorem setDT_DT (v : Byte) : (setDT s v).DT = v := rfl
@[simp] theorem setDT_Px (v : Byte) : (setDT s v).Px = s.Px := rfl
@[simp] theorem setDT_mem (v : Byte) : (setDT s v).mem = s.mem := rfl
@[simp] theorem setDT_rng (v : Byte) : (setDT s v).rng = s.rng := rfl
@[simp] theorem setDT_halt (v : Byte) : (setDT s v).halt = s.halt := rfl
@[simp] theorem setDT_fkind (v : Byte) : (setDT s v).fkind = s.fkind := rfl
@[simp] theorem setDT_fop (v : Byte) : (setDT s v).fop = s.fop := rfl
@[simp] theorem setDT_faddr (v : Byte) : (setDT s v).faddr = s.faddr := rfl
@[simp] theorem setDT_schedule (v : Byte) : (setDT s v).schedule = s.schedule := rfl
@[simp] theorem getV_setDT (v : Byte) (r : Nibble) : getV (setDT s v) r = getV s r := rfl

/-! ## setPx -/

@[simp] theorem setPx_V (g : Grid) : (setPx s g).V = s.V := rfl
@[simp] theorem setPx_I (g : Grid) : (setPx s g).I = s.I := rfl
@[simp] theorem setPx_pc (g : Grid) : (setPx s g).pc = s.pc := rfl
@[simp] theorem setPx_sp (g : Grid) : (setPx s g).sp = s.sp := rfl
@[simp] theorem setPx_DT (g : Grid) : (setPx s g).DT = s.DT := rfl
@[simp] theorem setPx_Px (g : Grid) : (setPx s g).Px = g := rfl
@[simp] theorem setPx_mem (g : Grid) : (setPx s g).mem = s.mem := rfl
@[simp] theorem setPx_rng (g : Grid) : (setPx s g).rng = s.rng := rfl
@[simp] theorem setPx_halt (g : Grid) : (setPx s g).halt = s.halt := rfl
@[simp] theorem setPx_fkind (g : Grid) : (setPx s g).fkind = s.fkind := rfl
@[simp] theorem setPx_fop (g : Grid) : (setPx s g).fop = s.fop := rfl
@[simp] theorem setPx_faddr (g : Grid) : (setPx s g).faddr = s.faddr := rfl
@[simp] theorem setPx_schedule (g : Grid) : (setPx s g).schedule = s.schedule := rfl
@[simp] theorem getV_setPx (g : Grid) (r : Nibble) : getV (setPx s g) r = getV s r := rfl

/-! ## setMem -/

@[simp] theorem setMem_V (m : Memory) : (setMem s m).V = s.V := rfl
@[simp] theorem setMem_I (m : Memory) : (setMem s m).I = s.I := rfl
@[simp] theorem setMem_pc (m : Memory) : (setMem s m).pc = s.pc := rfl
@[simp] theorem setMem_sp (m : Memory) : (setMem s m).sp = s.sp := rfl
@[simp] theorem setMem_DT (m : Memory) : (setMem s m).DT = s.DT := rfl
@[simp] theorem setMem_Px (m : Memory) : (setMem s m).Px = s.Px := rfl
@[simp] theorem setMem_mem (m : Memory) : (setMem s m).mem = m := rfl
@[simp] theorem setMem_rng (m : Memory) : (setMem s m).rng = s.rng := rfl
@[simp] theorem setMem_halt (m : Memory) : (setMem s m).halt = s.halt := rfl
@[simp] theorem setMem_fkind (m : Memory) : (setMem s m).fkind = s.fkind := rfl
@[simp] theorem setMem_fop (m : Memory) : (setMem s m).fop = s.fop := rfl
@[simp] theorem setMem_faddr (m : Memory) : (setMem s m).faddr = s.faddr := rfl
@[simp] theorem setMem_schedule (m : Memory) : (setMem s m).schedule = s.schedule := rfl
@[simp] theorem getV_setMem (m : Memory) (r : Nibble) : getV (setMem s m) r = getV s r := rfl

/-! ## nextDraw -/

@[simp] theorem nextDraw_V : (nextDraw s).V = s.V := rfl
@[simp] theorem nextDraw_I : (nextDraw s).I = s.I := rfl
@[simp] theorem nextDraw_pc : (nextDraw s).pc = s.pc := rfl
@[simp] theorem nextDraw_sp : (nextDraw s).sp = s.sp := rfl
@[simp] theorem nextDraw_DT : (nextDraw s).DT = s.DT := rfl
@[simp] theorem nextDraw_Px : (nextDraw s).Px = s.Px := rfl
@[simp] theorem nextDraw_mem : (nextDraw s).mem = s.mem := rfl
@[simp] theorem nextDraw_rng : (nextDraw s).rng = s.rng + 1 := rfl
@[simp] theorem nextDraw_halt : (nextDraw s).halt = s.halt := rfl
@[simp] theorem nextDraw_fkind : (nextDraw s).fkind = s.fkind := rfl
@[simp] theorem nextDraw_fop : (nextDraw s).fop = s.fop := rfl
@[simp] theorem nextDraw_faddr : (nextDraw s).faddr = s.faddr := rfl
@[simp] theorem nextDraw_schedule : (nextDraw s).schedule = s.schedule := rfl
@[simp] theorem getV_nextDraw (r : Nibble) : getV (nextDraw s) r = getV s r := rfl

/-! ## setVUpTo -/

@[simp] theorem setVUpTo_V (x : Nibble) (f : Nat → Byte) : (setVUpTo s x f).V = Vector.ofFn fun k : Fin 16 => if k.val ≤ x.toNat then f k.val else s.V[k] := rfl
@[simp] theorem setVUpTo_I (x : Nibble) (f : Nat → Byte) : (setVUpTo s x f).I = s.I := rfl
@[simp] theorem setVUpTo_pc (x : Nibble) (f : Nat → Byte) : (setVUpTo s x f).pc = s.pc := rfl
@[simp] theorem setVUpTo_sp (x : Nibble) (f : Nat → Byte) : (setVUpTo s x f).sp = s.sp := rfl
@[simp] theorem setVUpTo_DT (x : Nibble) (f : Nat → Byte) : (setVUpTo s x f).DT = s.DT := rfl
@[simp] theorem setVUpTo_Px (x : Nibble) (f : Nat → Byte) : (setVUpTo s x f).Px = s.Px := rfl
@[simp] theorem setVUpTo_mem (x : Nibble) (f : Nat → Byte) : (setVUpTo s x f).mem = s.mem := rfl
@[simp] theorem setVUpTo_rng (x : Nibble) (f : Nat → Byte) : (setVUpTo s x f).rng = s.rng := rfl
@[simp] theorem setVUpTo_halt (x : Nibble) (f : Nat → Byte) : (setVUpTo s x f).halt = s.halt := rfl
@[simp] theorem setVUpTo_fkind (x : Nibble) (f : Nat → Byte) : (setVUpTo s x f).fkind = s.fkind := rfl
@[simp] theorem setVUpTo_fop (x : Nibble) (f : Nat → Byte) : (setVUpTo s x f).fop = s.fop := rfl
@[simp] theorem setVUpTo_faddr (x : Nibble) (f : Nat → Byte) : (setVUpTo s x f).faddr = s.faddr := rfl
@[simp] theorem setVUpTo_schedule (x : Nibble) (f : Nat → Byte) : (setVUpTo s x f).schedule = s.schedule := rfl

/-! ## advance -/

@[simp] theorem advance_V : (advance s).V = s.V := rfl
@[simp] theorem advance_I : (advance s).I = s.I := rfl
@[simp] theorem advance_pc : (advance s).pc = s.pc + 2 := rfl
@[simp] theorem advance_sp : (advance s).sp = s.sp := rfl
@[simp] theorem advance_DT : (advance s).DT = s.DT := rfl
@[simp] theorem advance_Px : (advance s).Px = s.Px := rfl
@[simp] theorem advance_mem : (advance s).mem = s.mem := rfl
@[simp] theorem advance_rng : (advance s).rng = s.rng := rfl
@[simp] theorem advance_halt : (advance s).halt = s.halt := rfl
@[simp] theorem advance_fkind : (advance s).fkind = s.fkind := rfl
@[simp] theorem advance_fop : (advance s).fop = s.fop := rfl
@[simp] theorem advance_faddr : (advance s).faddr = s.faddr := rfl
@[simp] theorem advance_schedule : (advance s).schedule = s.schedule := rfl
@[simp] theorem getV_advance (r : Nibble) : getV (advance s) r = getV s r := rfl

/-! ## push -/

@[simp] theorem push_V (w : Word) : (push s w).V = s.V := rfl
@[simp] theorem push_I (w : Word) : (push s w).I = s.I := rfl
@[simp] theorem push_pc (w : Word) : (push s w).pc = s.pc := rfl
@[simp] theorem push_sp (w : Word) : (push s w).sp = s.sp - 2 := rfl
@[simp] theorem push_DT (w : Word) : (push s w).DT = s.DT := rfl
@[simp] theorem push_Px (w : Word) : (push s w).Px = s.Px := rfl
@[simp] theorem push_mem (w : Word) : (push s w).mem = writeWord s.mem (pushAddr s) w := rfl
@[simp] theorem push_rng (w : Word) : (push s w).rng = s.rng := rfl
@[simp] theorem push_halt (w : Word) : (push s w).halt = s.halt := rfl
@[simp] theorem push_fkind (w : Word) : (push s w).fkind = s.fkind := rfl
@[simp] theorem push_fop (w : Word) : (push s w).fop = s.fop := rfl
@[simp] theorem push_faddr (w : Word) : (push s w).faddr = s.faddr := rfl
@[simp] theorem push_schedule (w : Word) : (push s w).schedule = s.schedule := rfl
@[simp] theorem getV_push (w : Word) (r : Nibble) : getV (push s w) r = getV s r := rfl

/-! ## dropTop -/

@[simp] theorem dropTop_V : (dropTop s).V = s.V := rfl
@[simp] theorem dropTop_I : (dropTop s).I = s.I := rfl
@[simp] theorem dropTop_pc : (dropTop s).pc = s.pc := rfl
@[simp] theorem dropTop_sp : (dropTop s).sp = s.sp + 2 := rfl
@[simp] theorem dropTop_DT : (dropTop s).DT = s.DT := rfl
@[simp] theorem dropTop_Px : (dropTop s).Px = s.Px := rfl
@[simp] theorem dropTop_mem : (dropTop s).mem = s.mem := rfl
@[simp] theorem dropTop_rng : (dropTop s).rng = s.rng := rfl
@[simp] theorem dropTop_halt : (dropTop s).halt = s.halt := rfl
@[simp] theorem dropTop_fkind : (dropTop s).fkind = s.fkind := rfl
@[simp] theorem dropTop_fop : (dropTop s).fop = s.fop := rfl
@[simp] theorem dropTop_faddr : (dropTop s).faddr = s.faddr := rfl
@[simp] theorem dropTop_schedule : (dropTop s).schedule = s.schedule := rfl
@[simp] theorem getV_dropTop (r : Nibble) : getV (dropTop s) r = getV s r := rfl

/-! ## raise -/

@[simp] theorem raise_V (k : FailureKind) (op : Word) : (raise k op s).V = s.V := rfl
@[simp] theorem raise_I (k : FailureKind) (op : Word) : (raise k op s).I = s.I := rfl
@[simp] theorem raise_pc (k : FailureKind) (op : Word) : (raise k op s).pc = s.pc := rfl
@[simp] theorem raise_sp (k : FailureKind) (op : Word) : (raise k op s).sp = s.sp := rfl
@[simp] theorem raise_DT (k : FailureKind) (op : Word) : (raise k op s).DT = s.DT := rfl
@[simp] theorem raise_Px (k : FailureKind) (op : Word) : (raise k op s).Px = s.Px := rfl
@[simp] theorem raise_mem (k : FailureKind) (op : Word) : (raise k op s).mem = s.mem := rfl
@[simp] theorem raise_rng (k : FailureKind) (op : Word) : (raise k op s).rng = s.rng := rfl
@[simp] theorem raise_halt (k : FailureKind) (op : Word) : (raise k op s).halt = true := rfl
@[simp] theorem raise_fkind (k : FailureKind) (op : Word) : (raise k op s).fkind = k := rfl
@[simp] theorem raise_fop (k : FailureKind) (op : Word) : (raise k op s).fop = op := rfl
@[simp] theorem raise_faddr (k : FailureKind) (op : Word) : (raise k op s).faddr = s.pc := rfl
@[simp] theorem raise_schedule (k : FailureKind) (op : Word) : (raise k op s).schedule = s.schedule := rfl
@[simp] theorem getV_raise (k : FailureKind) (op : Word) (r : Nibble) : getV (raise k op s) r = getV s r := rfl

/-! ## readyToStep and a consumed event -/

@[simp] theorem readyToStep_mem : (readyToStep s).mem = s.mem := rfl
@[simp] theorem readyToStep_pc : (readyToStep s).pc = s.pc := rfl
@[simp] theorem readyToStep_halt : (readyToStep s).halt = false := rfl
@[simp] theorem readyToStep_schedule : (readyToStep s).schedule = [] := rfl

/-! ## General registers -/

/-- A register written is read back. -/
@[simp] theorem getV_setV_same (x : Nibble) (v : Byte) : getV (setV s x v) x = v := by simp [getV, setV]

/-- A register write leaves every other register alone. -/
theorem getV_setV_other (x r : Nibble) (v : Byte) (h : r ≠ x) : getV (setV s x v) r = getV s r := by
  have hx : x.toNat ≠ r.toNat := fun e => h (BitVec.eq_of_toNat_eq e.symm)
  simp [getV, setV, hx]

/-- Both at once. -/
theorem getV_setV (x r : Nibble) (v : Byte) : getV (setV s x v) r = if r = x then v else getV s r := by
  split
  · next h => subst h; simp
  · next h => exact getV_setV_other s x r v h

/-- A block load writes the registers up to `x` and no other. -/
@[simp] theorem getV_setVUpTo (x r : Nibble) (f : Nat → Byte) :
    getV (setVUpTo s x f) r = if r.toNat ≤ x.toNat then f r.toNat else getV s r := by
  simp [getV, setVUpTo]

end Sys2Proof.Machine
end

