-- ==== Sys2Proof/Laws/Display.lean ====
section
/-! SUPPORT. The laws of the display's cells. -/

namespace Sys2Proof.Machine

/-- A cell written is read back; every other cell reads as before. -/
theorem getPx_putPx (g : Grid) (r r' : Fin 32) (c c' : Fin 64) (v : Bool) :
    getPx (putPx g r c v) r' c' = if r' = r ∧ c' = c then v else getPx g r' c' := by
  by_cases hr : r' = r
  · subst hr
    by_cases hc : c' = c
    · subst hc; simp [getPx, putPx]
    · have : c.val ≠ c'.val := fun e => hc (Fin.ext e.symm)
      simp [getPx, putPx, hc, this]
  · have : r.val ≠ r'.val := fun e => hr (Fin.ext e.symm)
    simp [getPx, putPx, hr, this]

/-- After a clear every cell is unlit (45_display.md R160). -/
@[simp] theorem getPx_clearGrid (r : Fin 32) (c : Fin 64) : getPx clearGrid r c = false := by
  simp [getPx, clearGrid]

/-- Two grids with the same cells are the same grid. -/
theorem grid_ext {g h : Grid} (e : ∀ r c, getPx g r c = getPx h r c) : g = h := by
  apply Vector.ext
  intro i hi
  apply Vector.ext
  intro j hj
  simpa [getPx] using e ⟨i, hi⟩ ⟨j, hj⟩

/-- What one bit of a sprite does to a cell: a 1 toggles its own cell, nothing else changes (45_display.md R161). -/
theorem getPx_blitBit (x0 y0 row col : Nat) (b : Byte) (acc : Grid × Bool) (r : Fin 32) (c : Fin 64) :
    getPx (blitBit x0 y0 row b acc col).1 r c =
      (getPx acc.1 r c ^^ (b.getLsbD (7 - col) && (r == Fin.ofNat 32 (y0 + row) && c == Fin.ofNat 64 (x0 + col)))) := by
  unfold blitBit
  by_cases hb : b.getLsbD (7 - col) = true
  · simp only [hb, if_true, getPx_putPx]
    by_cases h : r = Fin.ofNat 32 (y0 + row) ∧ c = Fin.ofNat 64 (x0 + col)
    · obtain ⟨rfl, rfl⟩ := h; simp
    · rw [if_neg h]
      have : (r == Fin.ofNat 32 (y0 + row) && c == Fin.ofNat 64 (x0 + col)) = false := by
        simpa [Bool.and_eq_false_iff, ← not_and_or] using h
      rw [this, Bool.and_false, Bool.xor_false]
  · simp [hb]

/-- What one bit of a sprite does to the collision: a 1 on a lit cell is one (45_display.md R161). -/
theorem blitBit_collision (x0 y0 row col : Nat) (b : Byte) (acc : Grid × Bool) :
    (blitBit x0 y0 row b acc col).2 =
      (acc.2 || (b.getLsbD (7 - col) && getPx acc.1 (Fin.ofNat 32 (y0 + row)) (Fin.ofNat 64 (x0 + col)))) := by
  unfold blitBit
  by_cases hb : b.getLsbD (7 - col) = true <;> simp [hb]

end Sys2Proof.Machine
end

