-- ==== Sys2Proof/Laws/Memory.lean ====
section
/-! SUPPORT. The laws of memory: read after write, and that every memory operation keeps the canonical form. -/

namespace Sys2Proof.Machine

/-! ## Reading -/

@[simp] theorem readByte_nil (a : Nat) : readByte [] a = resetByte a := rfl

/-- An address no entry lists reads as at Reset. -/
theorem readByte_of_not_listed {m : Memory} {a : Nat} (h : ∀ c ∈ m, c.1 ≠ a) : readByte m a = resetByte a := by
  induction m with
  | nil => rfl
  | cons c rest ih =>
    obtain ⟨k, b⟩ := c
    have hk : k ≠ a := h (k, b) (by simp)
    simpa [readByte, hk] using ih (fun c hc => h c (by simp [hc]))

/-- Leaving out the entries of one address changes no other byte. -/
theorem readByte_filter_other (m : Memory) {a a' : Nat} (h : a' ≠ a) :
    readByte (m.filter (fun c => c.1 ≠ a)) a' = readByte m a' := by
  induction m with
  | nil => rfl
  | cons c rest ih =>
    obtain ⟨k, b⟩ := c
    by_cases hk : k = a
    · subst hk
      simpa [readByte, h.symm] using ih
    · rw [List.filter_cons_of_pos (by simpa using hk), readByte, readByte, ih]

/-- A listed byte is read where it stands; every other address reads as before. -/
theorem readByte_insertCell (m : Memory) {a : Nat} (b : Byte) (a' : Nat) (h : ∀ c ∈ m, c.1 ≠ a) :
    readByte (insertCell m a b) a' = if a' = a then b else readByte m a' := by
  induction m with
  | nil =>
    by_cases ha : a' = a
    · simp [insertCell, readByte, ha]
    · simp [insertCell, readByte, ha, Ne.symm ha]
  | cons c rest ih =>
    obtain ⟨k, v⟩ := c
    have hk : k ≠ a := h (k, v) (by simp)
    have ih := ih (fun c hc => h c (by simp [hc]))
    by_cases hlt : k < a
    · by_cases hk' : k = a'
      · subst hk'; simp [insertCell, hlt, readByte, hk]
      · simp [insertCell, hlt, readByte, hk', ih]
    · by_cases ha : a' = a
      · subst ha; simp [insertCell, hlt, readByte]
      · simp [insertCell, hlt, readByte, ha, Ne.symm ha]

/-- Memory after a byte store: the byte stored where it was stored, every other byte as before (20_memory.md R57, R62). -/
theorem readByte_writeByte (m : Memory) (a : Nat) (b : Byte) (a' : Nat) :
    readByte (writeByte m a b) a' = if a' = a then b else readByte m a' := by
  have hnot : ∀ c ∈ m.filter (fun c => c.1 ≠ a), c.1 ≠ a := by
    intro c hc; simpa using (List.mem_filter.1 hc).2
  unfold writeByte
  by_cases hb : b = resetByte a
  · by_cases ha : a' = a
    · subst ha; simpa [hb] using readByte_of_not_listed hnot
    · simpa [hb, ha] using readByte_filter_other m ha
  · simp only [hb, if_false, readByte_insertCell _ b a' hnot]
    by_cases ha : a' = a
    · simp [ha]
    · simp only [ha, if_false, readByte_filter_other m ha]

@[simp] theorem readByte_writeByte_same (m : Memory) (a : Nat) (b : Byte) : readByte (writeByte m a b) a = b := by
  simp [readByte_writeByte]

theorem readByte_writeByte_other (m : Memory) {a a' : Nat} (b : Byte) (h : a' ≠ a) :
    readByte (writeByte m a b) a' = readByte m a' := by simp [readByte_writeByte, h]

/-- Memory after a word store: the high byte lower, then the low byte (20_memory.md R52). -/
theorem readByte_writeWord (m : Memory) (a : Nat) (w : Word) (a' : Nat) :
    readByte (writeWord m a w) a' =
      if a' = a + 1 then lowByte w else if a' = a then highByte w else readByte m a' := by
  simp [writeWord, readByte_writeByte]

/-- Memory after a run of bytes is stored: byte `k` of the run at `base + k`, every other byte as before. -/
theorem readByte_writeRun (bs : List Byte) (m : Memory) (base a : Nat) :
    readByte (writeRun m base bs) a =
      if base ≤ a then bs.getD (a - base) (readByte m a) else readByte m a := by
  induction bs generalizing m base with
  | nil => simp [writeRun]
  | cons b bs ih =>
    rw [writeRun, ih, readByte_writeByte]
    rcases Nat.lt_trichotomy a base with h | h | h
    · simp [show ¬ base + 1 ≤ a by omega, show ¬ base ≤ a by omega, show a ≠ base by omega]
    · subst h; simp
    · obtain ⟨d, rfl⟩ : ∃ d, a = base + 1 + d := ⟨a - (base + 1), by omega⟩
      simp [show base + 1 + d ≠ base by omega, show base + 1 + d - base = d + 1 by omega,
        show base ≤ base + 1 + d by omega]

/-- A run of bytes changes nothing outside itself. -/
theorem readByte_writeRun_outside (bs : List Byte) (m : Memory) {base a : Nat}
    (h : a < base ∨ base + bs.length ≤ a) : readByte (writeRun m base bs) a = readByte m a := by
  rw [readByte_writeRun]
  split
  · rw [List.getD_eq_default]; omega
  · rfl

/-- The image is read where it was placed, every other byte as at Reset (70_reset_and_hazards.md R210). -/
theorem readByte_loadImage (bs : List Byte) (base a : Nat) :
    readByte (loadImage base bs) a = if base ≤ a then bs.getD (a - base) (resetByte a) else resetByte a := by
  induction bs generalizing base with
  | nil => simp [loadImage]
  | cons b bs ih =>
    have hlow : ∀ d, base + 1 + d - base = d + 1 := fun d => by omega
    rcases Nat.lt_trichotomy a base with h | h | h
    · have h1 : ¬ base + 1 ≤ a := by omega
      have h2 : ¬ base ≤ a := by omega
      have h3 : base ≠ a := by omega
      simp only [loadImage]
      split <;> simp [readByte, ih, h1, h3]
    · subst h
      simp only [loadImage]
      split
      · next hb => simp [ih, hb, show ¬ a + 1 ≤ a by omega]
      · simp [readByte]
    · obtain ⟨d, rfl⟩ : ∃ d, a = base + 1 + d := ⟨a - (base + 1), by omega⟩
      simp only [loadImage]
      split <;> simp [readByte, ih, hlow, show base ≤ base + 1 + d by omega, show base ≠ base + 1 + d by omega]

/-- The two bytes of a word, joined, are the word. -/
@[simp] theorem joinBytes_bytes (w : Word) : joinBytes (highByte w) (lowByte w) = w := by
  apply BitVec.eq_of_getLsbD_eq
  intro i hi
  simp only [joinBytes, highByte, lowByte, BitVec.getLsbD_append, BitVec.getLsbD_extractLsb']
  by_cases h : i < 8
  · simp [h]
  · simp [h, show i - 8 < 8 by omega, show 8 + (i - 8) = i by omega]

/-- A word stored is the word read (20_memory.md R52). -/
@[simp] theorem readWord_writeWord_same (m : Memory) (a : Nat) (w : Word) : readWord (writeWord m a w) a = w := by
  simp [readWord, readByte_writeWord, joinBytes_bytes]

/-! ## The canonical form -/

theorem wf_nil : Memory.wf [] := ⟨List.Pairwise.nil, fun _ h => nomatch h⟩

/-- Leaving entries out keeps the form. -/
theorem wf_filter {m : Memory} (h : Memory.wf m) (p : Host.Cell → Bool) : Memory.wf (m.filter p) := by
  refine ⟨?_, fun c hc => h.2 c (List.mem_filter.1 hc).1⟩
  exact List.Pairwise.sublist (List.Sublist.map _ List.filter_sublist) h.1

theorem mem_insertCell {m : Memory} {a : Nat} {b : Byte} {c : Host.Cell} :
    c ∈ insertCell m a b ↔ c = (a, b) ∨ c ∈ m := by
  induction m with
  | nil => simp [insertCell]
  | cons d rest ih =>
    obtain ⟨k, v⟩ := d
    by_cases hlt : k < a
    · simp [insertCell, hlt, ih]; tauto
    · simp [insertCell, hlt]

/-- Listing a byte that must be listed keeps the form. -/
theorem wf_insertCell {m : Memory} {a : Nat} {b : Byte} (h : Memory.wf m) (ha : a < Config.memCapacity)
    (hb : b ≠ resetByte a) (hnot : ∀ c ∈ m, c.1 ≠ a) : Memory.wf (insertCell m a b) := by
  refine ⟨?_, ?_⟩
  · induction m with
    | nil => simp [insertCell]
    | cons d rest ih =>
      obtain ⟨k, v⟩ := d
      have hwf : Memory.wf rest := ⟨(List.pairwise_cons.1 h.1).2, fun c hc => h.2 c (by simp [hc])⟩
      have hk : k ≠ a := hnot (k, v) (by simp)
      have hrest := ih hwf (fun c hc => hnot c (by simp [hc]))
      have hhead := (List.pairwise_cons.1 h.1).1
      by_cases hlt : k < a
      · simp only [insertCell, hlt, if_true, List.map_cons, List.pairwise_cons]
        refine ⟨?_, hrest⟩
        intro x hx
        obtain ⟨c, hc, rfl⟩ := List.mem_map.1 hx
        rcases mem_insertCell.1 hc with rfl | hc
        · exact hlt
        · exact hhead _ (List.mem_map.2 ⟨c, hc, rfl⟩)
      · simp only [insertCell, hlt, if_false, List.map_cons, List.pairwise_cons]
        refine ⟨?_, List.pairwise_cons.1 h.1⟩
        intro x hx
        rcases List.mem_cons.1 hx with rfl | hx
        · omega
        · have := hhead x hx; omega
  · intro c hc
    rcases mem_insertCell.1 hc with rfl | hc
    · exact ⟨ha, hb⟩
    · exact h.2 c hc

/-- A byte store inside memory keeps the form. -/
theorem wf_writeByte {m : Memory} (h : Memory.wf m) {a : Nat} (ha : a < Config.memCapacity) (b : Byte) :
    Memory.wf (writeByte m a b) := by
  unfold writeByte
  by_cases hb : b = resetByte a
  · simpa [hb] using wf_filter h _
  · simp only [hb, if_false]
    exact wf_insertCell (wf_filter h _) ha hb (fun c hc => by simpa using (List.mem_filter.1 hc).2)

/-- A word store inside memory keeps the form. -/
theorem wf_writeWord {m : Memory} (h : Memory.wf m) {a : Nat} (ha : a + 1 < Config.memCapacity) (w : Word) :
    Memory.wf (writeWord m a w) :=
  wf_writeByte (wf_writeByte h (by omega) _) ha _

/-- A run of bytes inside memory keeps the form. -/
theorem wf_writeRun (bs : List Byte) {m : Memory} (h : Memory.wf m) {base : Nat}
    (hb : base + bs.length ≤ Config.memCapacity) : Memory.wf (writeRun m base bs) := by
  induction bs generalizing m base with
  | nil => exact h
  | cons b bs ih =>
    simp only [List.length_cons] at hb
    exact ih (wf_writeByte h (by omega) b) (by omega)

/-- An image placed inside memory has the form. -/
theorem wf_loadImage (bs : List Byte) {base : Nat} (hb : base + bs.length ≤ Config.memCapacity) :
    Memory.wf (loadImage base bs) ∧ ∀ c ∈ loadImage base bs, base ≤ c.1 := by
  induction bs generalizing base with
  | nil => exact ⟨wf_nil, fun _ h => nomatch h⟩
  | cons b bs ih =>
    simp only [List.length_cons] at hb
    obtain ⟨hwf, hge⟩ := ih (base := base + 1) (by omega)
    simp only [loadImage]
    split
    · exact ⟨hwf, fun c hc => by have := hge c hc; omega⟩
    · next hne =>
      refine ⟨⟨?_, ?_⟩, ?_⟩
      · simp only [List.map_cons, List.pairwise_cons]
        refine ⟨?_, hwf.1⟩
        intro x hx
        obtain ⟨c, hc, rfl⟩ := List.mem_map.1 hx
        have := hge c hc; omega
      · intro c hc
        rcases List.mem_cons.1 hc with rfl | hc
        · exact ⟨by simp; omega, hne⟩
        · exact hwf.2 c hc
      · intro c hc
        rcases List.mem_cons.1 hc with rfl | hc
        · simp
        · have := hge c hc; omega

/-- The memory of the reset state has the form. -/
theorem wf_reset : Memory.wf State.reset.mem := wf_nil

end Sys2Proof.Machine
end

