-- ==== Sys2Proof/Laws/Effects.lean ====
section
/-! SUPPORT. What each shared operation can do, said once: the checks, the failure entry, an instruction, a Step. -/

namespace Sys2Proof.Machine

/-! ## Checks -/

/-- A read passes its check exactly when it is empty or lies inside memory. -/
theorem checkRead_eq_none {addr len : Nat} : checkRead addr len = none ↔ len = 0 ∨ addr + len ≤ Config.memCapacity := by
  unfold checkRead Config.memCapacity
  split
  · simp; omega
  · simp; omega

/-- A failing read check is DataBounds. -/
theorem checkRead_eq_some {addr len : Nat} {k : FailureKind} :
    checkRead addr len = some k ↔ k = .dataBounds ∧ len ≠ 0 ∧ Config.memCapacity < addr + len := by
  unfold checkRead Config.memCapacity
  split
  · simp [eq_comm (b := k)]; omega
  · simp; omega

/-- A store of at least one byte passes its check exactly when it lies above the font and inside memory. -/
theorem checkWrite_eq_none {addr len : Nat} (h : len ≠ 0) :
    checkWrite addr len = none ↔ Config.fontSize ≤ addr ∧ addr + len ≤ Config.memCapacity := by
  rw [checkWrite, Option.or_eq_none_iff, checkRead_eq_none]
  unfold Config.fontBase Config.fontSize
  split
  · simp; omega
  · simp; omega

/-- The failures an instruction's own checks can raise (60_exceptions.md R182, R183). -/
def InstrFailure (k : FailureKind) : Prop :=
  k = .dataBounds ∨ k = .fontWrite ∨ k = .stackOverflow ∨ k = .stackUnderflow

/-- They are failures, and none is the fetch's, the decoder's or Reset's. -/
theorem InstrFailure.distinct {k : FailureKind} (h : InstrFailure k) :
    k ≠ .noFailure ∧ k ≠ .fetchBounds ∧ k ≠ .decodeFailure ∧ k ≠ .loadFailure := by
  rcases h with rfl | rfl | rfl | rfl <;> decide

theorem checkRead_instrFailure {addr len : Nat} {k : FailureKind} (h : checkRead addr len = some k) : InstrFailure k :=
  .inl (checkRead_eq_some.1 h).1

theorem checkWrite_instrFailure {addr len : Nat} {k : FailureKind} (h : checkWrite addr len = some k) : InstrFailure k := by
  rw [checkWrite, Option.or_eq_some_iff] at h
  rcases h with h | ⟨-, h⟩
  · exact checkRead_instrFailure h
  · split at h
    · exact .inr (.inl (by simpa using h.symm))
    · simp at h

theorem checkPush_eq_none {s : State} : checkPush s = none ↔ Config.stackBase + 2 ≤ s.sp.toNat := by
  simp [checkPush]

theorem checkPush_instrFailure {s : State} {k : FailureKind} (h : checkPush s = some k) : InstrFailure k := by
  unfold checkPush at h
  split at h
  · exact .inr (.inr (.inl (by simpa using h.symm)))
  · simp at h

theorem checkPop_instrFailure {s : State} {k : FailureKind} (h : checkPop s = some k) : InstrFailure k := by
  unfold checkPop at h
  split at h
  · exact .inr (.inr (.inr (by simpa using h.symm)))
  · simp at h

theorem checkPop_eq_none {s : State} : checkPop s = none ↔ s.sp.toNat < Config.stackTop := by
  simp [checkPop]

/-! ## The failure entry -/

/-- An instruction with checks always answers a next state: the failure entry or its effect. -/
theorem attempt_eq (check : Option FailureKind) (op : Word) (s t : State) :
    attempt check op s t = .next (match check with | some k => raise k op s | none => t) := by
  cases check <;> rfl

/-- What an instruction with checks can do. -/
theorem attempt_cases {check : Option FailureKind} {op : Word} {s t u : State} (h : attempt check op s t = .next u) :
    (check = none ∧ u = t) ∨ ∃ k, check = some k ∧ u = raise k op s := by
  cases check with
  | none => exact .inl ⟨rfl, by simpa [attempt] using h.symm⟩
  | some k => exact .inr ⟨k, rfl, by simpa [attempt] using h.symm⟩

theorem attempt_none (op : Word) (s t : State) : attempt none op s t = .next t := rfl

theorem attempt_some (k : FailureKind) (op : Word) (s t : State) : attempt (some k) op s t = .next (raise k op s) := rfl

/-- The failure entry meets its frame. -/
theorem failed_raise (k : FailureKind) (op : Word) (s : State) : Failed k op s (raise k op s) where
  halt := rfl
  fkind := rfl
  fop := rfl
  faddr := rfl
  pc := rfl
  shape := ⟨fun _ _ => rfl, fun _ _ => rfl, fun _ => rfl, rfl, rfl⟩
  others := ⟨rfl, rfl, rfl⟩

/-! ## An instruction -/

/-- The state a known next state is. -/
theorem next_inj {a b : State} (h : (Host.Outcome.next a : Host.Outcome State Fault Refusal) = .next b) : b = a := by
  simpa using h.symm

/-- What an instruction's own effect can do to memory, `sp` and the record, for the invariant: a store above the font and inside
memory, one push, one pop, and never the failure record. -/
structure Effect (s t : State) : Prop where
  bytes : t.mem = s.mem ∨ ∃ base bs, Config.fontSize ≤ base ∧ base + bs.length ≤ Config.memCapacity ∧
    t.mem = writeRun s.mem base bs
  stack : t.sp = s.sp ∨ (t.sp = s.sp - 2 ∧ Config.stackBase + 2 ≤ s.sp.toNat) ∨
    (t.sp = s.sp + 2 ∧ s.sp.toNat < Config.stackTop)
  record : SameRecord s t

/-- An effect that leaves memory, `sp` and the record alone. -/
theorem Effect.quiet {s t : State} (hm : t.mem = s.mem) (hsp : t.sp = s.sp) (hr : SameRecord s t) : Effect s t :=
  ⟨.inl hm, .inl hsp, hr⟩

/-- What an instruction can do: its effect, or the failure entry under its own word. -/
theorem exec_cases {i : Instr} {s t : State} (h : exec i s = .next t) :
    Effect s t ∨ ∃ k, InstrFailure k ∧ t = raise k (encode i) s := by
  cases i with
  | ret =>
    rcases attempt_cases h with ⟨hc, rfl⟩ | ⟨k, hk, rfl⟩
    · rw [Option.or_eq_none_iff] at hc
      exact .inl ⟨.inl rfl, .inr (.inr ⟨rfl, checkPop_eq_none.1 hc.1⟩), ⟨rfl, rfl, rfl, rfl⟩⟩
    · refine .inr ⟨k, ?_, rfl⟩
      rw [Option.or_eq_some_iff] at hk
      rcases hk with hk | ⟨-, hk⟩
      · exact checkPop_instrFailure hk
      · exact checkRead_instrFailure hk
  | call addr =>
    rcases attempt_cases h with ⟨hc, rfl⟩ | ⟨k, hk, rfl⟩
    · rw [Option.or_eq_none_iff] at hc
      obtain ⟨h1, h2⟩ := (checkWrite_eq_none (by decide)).1 hc.2
      exact .inl ⟨.inr ⟨pushAddr s, [highByte (advance s).pc, lowByte (advance s).pc], h1, h2, rfl⟩,
        .inr (.inl ⟨rfl, checkPush_eq_none.1 hc.1⟩), ⟨rfl, rfl, rfl, rfl⟩⟩
    · refine .inr ⟨k, ?_, rfl⟩
      rw [Option.or_eq_some_iff] at hk
      rcases hk with hk | ⟨-, hk⟩
      · exact checkPush_instrFailure hk
      · exact checkWrite_instrFailure hk
  | drw x y n =>
    rcases attempt_cases h with ⟨-, rfl⟩ | ⟨k, hk, rfl⟩
    · exact .inl (.quiet rfl rfl ⟨rfl, rfl, rfl, rfl⟩)
    · exact .inr ⟨k, checkRead_instrFailure hk, rfl⟩
  | bcd x =>
    rcases attempt_cases h with ⟨hc, rfl⟩ | ⟨k, hk, rfl⟩
    · obtain ⟨h1, h2⟩ := (checkWrite_eq_none (by decide)).1 hc
      exact .inl ⟨.inr ⟨_, decimalDigits (getV s x), h1, h2, rfl⟩, .inl rfl, ⟨rfl, rfl, rfl, rfl⟩⟩
    · exact .inr ⟨k, checkWrite_instrFailure hk, rfl⟩
  | str x =>
    rcases attempt_cases h with ⟨hc, rfl⟩ | ⟨k, hk, rfl⟩
    · obtain ⟨h1, h2⟩ := (checkWrite_eq_none (by simp [regCount])).1 hc
      have hlen : (regsUpTo s x).length ≤ regCount x := by simp [regsUpTo]
      exact .inl ⟨.inr ⟨_, regsUpTo s x, h1, by omega, rfl⟩, .inl rfl, ⟨rfl, rfl, rfl, rfl⟩⟩
    · exact .inr ⟨k, checkWrite_instrFailure hk, rfl⟩
  | ld x =>
    rcases attempt_cases h with ⟨-, rfl⟩ | ⟨k, hk, rfl⟩
    · exact .inl (.quiet rfl rfl (by simp [SameRecord]))
    · exact .inr ⟨k, checkRead_instrFailure hk, rfl⟩
  | skeImm x kk => obtain rfl := next_inj h; left; split <;> exact .quiet rfl rfl ⟨rfl, rfl, rfl, rfl⟩
  | skneImm x kk => obtain rfl := next_inj h; left; split <;> exact .quiet rfl rfl ⟨rfl, rfl, rfl, rfl⟩
  | skeReg x y => obtain rfl := next_inj h; left; split <;> exact .quiet rfl rfl ⟨rfl, rfl, rfl, rfl⟩
  | skneReg x y => obtain rfl := next_inj h; left; split <;> exact .quiet rfl rfl ⟨rfl, rfl, rfl, rfl⟩
  | cls => obtain rfl := next_inj h; exact .inl (.quiet rfl rfl ⟨rfl, rfl, rfl, rfl⟩)
  | jmp addr => obtain rfl := next_inj h; exact .inl (.quiet rfl rfl ⟨rfl, rfl, rfl, rfl⟩)
  | movImm x kk => obtain rfl := next_inj h; exact .inl (.quiet rfl rfl ⟨rfl, rfl, rfl, rfl⟩)
  | addImm x kk => obtain rfl := next_inj h; exact .inl (.quiet rfl rfl ⟨rfl, rfl, rfl, rfl⟩)
  | movReg x y => obtain rfl := next_inj h; exact .inl (.quiet rfl rfl ⟨rfl, rfl, rfl, rfl⟩)
  | orReg x y => obtain rfl := next_inj h; exact .inl (.quiet rfl rfl ⟨rfl, rfl, rfl, rfl⟩)
  | andReg x y => obtain rfl := next_inj h; exact .inl (.quiet rfl rfl ⟨rfl, rfl, rfl, rfl⟩)
  | xorReg x y => obtain rfl := next_inj h; exact .inl (.quiet rfl rfl ⟨rfl, rfl, rfl, rfl⟩)
  | addReg x y => obtain rfl := next_inj h; exact .inl (.quiet rfl rfl ⟨rfl, rfl, rfl, rfl⟩)
  | subReg x y => obtain rfl := next_inj h; exact .inl (.quiet rfl rfl ⟨rfl, rfl, rfl, rfl⟩)
  | shr x => obtain rfl := next_inj h; exact .inl (.quiet rfl rfl ⟨rfl, rfl, rfl, rfl⟩)
  | rsubReg x y => obtain rfl := next_inj h; exact .inl (.quiet rfl rfl ⟨rfl, rfl, rfl, rfl⟩)
  | shl x => obtain rfl := next_inj h; exact .inl (.quiet rfl rfl ⟨rfl, rfl, rfl, rfl⟩)
  | movI addr => obtain rfl := next_inj h; exact .inl (.quiet rfl rfl ⟨rfl, rfl, rfl, rfl⟩)
  | jmpV0 addr => obtain rfl := next_inj h; exact .inl (.quiet rfl rfl ⟨rfl, rfl, rfl, rfl⟩)
  | rnd x kk => obtain rfl := next_inj h; exact .inl (.quiet rfl rfl ⟨rfl, rfl, rfl, rfl⟩)
  | movFromDT x => obtain rfl := next_inj h; exact .inl (.quiet rfl rfl ⟨rfl, rfl, rfl, rfl⟩)
  | movToDT x => obtain rfl := next_inj h; exact .inl (.quiet rfl rfl ⟨rfl, rfl, rfl, rfl⟩)
  | addI x => obtain rfl := next_inj h; exact .inl (.quiet rfl rfl ⟨rfl, rfl, rfl, rfl⟩)
  | font x => obtain rfl := next_inj h; exact .inl (.quiet rfl rfl ⟨rfl, rfl, rfl, rfl⟩)

/-! ## A Step -/

/-- What a Step can do, in the order of its checks (40_step_cycle.md R105). -/
theorem stepEvent_cases {s t : State} (h : stepEvent s = .next t) :
    (s.halt = true ∧ t = s) ∨
    (s.halt = false ∧ fetch s = none ∧ t = raise .fetchBounds 0 s) ∨
    (∃ w, s.halt = false ∧ fetch s = some w ∧ decode w = none ∧ t = raise .decodeFailure w s) ∨
    (∃ w i, s.halt = false ∧ fetch s = some w ∧ decode w = some i ∧ exec i s = .next t) := by
  unfold stepEvent at h
  cases hh : s.halt with
  | true => rw [hh] at h; exact .inl ⟨rfl, by simpa using h.symm⟩
  | false =>
    rw [hh] at h
    cases hf : fetch s with
    | none => exact .inr (.inl ⟨rfl, rfl, by simpa [hf] using h.symm⟩)
    | some w =>
      cases hd : decode w with
      | none => exact .inr (.inr (.inl ⟨w, rfl, rfl, hd, by simpa [hf, executeWord, hd] using h.symm⟩))
      | some i => exact .inr (.inr (.inr ⟨w, i, rfl, rfl, hd, by simpa [hf, executeWord, hd] using h⟩))

/-- A fetch inside memory reads the word at `pc`. -/
theorem fetch_inside {s : State} (h : s.pc.toNat ≤ 4094) : fetch s = some (readWord s.mem s.pc.toNat) := by
  simp [fetch, Config.memCapacity]; omega

/-- A fetch past the last word answers none. -/
theorem fetch_outside {s : State} (h : 4094 < s.pc.toNat) : fetch s = none := by
  simp [fetch, Config.memCapacity]; omega

end Sys2Proof.Machine
end

