-- ==== Sys2Proof/Laws/Encoding.lean ====
section
/-! SUPPORT. The fields of the three word formats, and which row of the opcode map a word of a format lies in. -/

namespace Sys2Proof

/-! ## Fields of an encoded word (30_encoding.md R81, R82) -/

@[simp] theorem opField_encNNN (op : Nibble) (addr : Addr) : opField (encNNN op addr) = op := by
  simp only [opField, encNNN]
  exact BitVec.extractLsb'_append_eq_left

@[simp] theorem addrField_encNNN (op : Nibble) (addr : Addr) : addrField (encNNN op addr) = addr := by
  simp only [addrField, encNNN]
  exact BitVec.extractLsb'_append_eq_right

/-- A bit of a word in format XKK. -/
theorem getLsbD_encXKK (op x : Nibble) (kk : Byte) (i : Nat) : (encXKK op x kk).getLsbD i =
    if i < 8 then kk.getLsbD i else if i < 12 then x.getLsbD (i - 8) else op.getLsbD (i - 12) := by
  simp only [encXKK, BitVec.getLsbD_append]
  by_cases h1 : i < 8
  · simp [h1]
  · by_cases h2 : i < 12
    · simp [h1, h2, show i - 8 < 4 by omega]
    · simp [h1, h2, show ¬ i - 8 < 4 by omega, show i - 8 - 4 = i - 12 by omega]

/-- A bit of a word in format XYN. -/
theorem getLsbD_encXYN (op x y n : Nibble) (i : Nat) : (encXYN op x y n).getLsbD i =
    if i < 4 then n.getLsbD i else if i < 8 then y.getLsbD (i - 4) else if i < 12 then x.getLsbD (i - 8)
    else op.getLsbD (i - 12) := by
  simp only [encXYN, BitVec.getLsbD_append]
  by_cases h1 : i < 4
  · simp [h1]
  · by_cases h2 : i < 8
    · simp [h1, h2, show i - 4 < 4 by omega]
    · by_cases h3 : i < 12
      · simp [h1, h2, h3, show ¬ i - 4 < 4 by omega, show i - 4 - 4 = i - 8 by omega, show i - 8 < 4 by omega]
      · simp [h1, h2, h3, show ¬ i - 4 < 4 by omega, show i - 4 - 4 = i - 8 by omega, show ¬ i - 8 < 4 by omega,
          show i - 8 - 4 = i - 12 by omega]

@[simp] theorem opField_encXKK (op x : Nibble) (kk : Byte) : opField (encXKK op x kk) = op := by
  apply BitVec.eq_of_getLsbD_eq
  intro i hi
  simp [opField, getLsbD_encXKK, hi, show ¬ 12 + i < 8 by omega]

@[simp] theorem xField_encXKK (op x : Nibble) (kk : Byte) : xField (encXKK op x kk) = x := by
  apply BitVec.eq_of_getLsbD_eq
  intro i hi
  simp [xField, getLsbD_encXKK, hi, show 8 + i < 12 by omega]

@[simp] theorem kkField_encXKK (op x : Nibble) (kk : Byte) : kkField (encXKK op x kk) = kk := by
  apply BitVec.eq_of_getLsbD_eq
  intro i hi
  simp [kkField, getLsbD_encXKK, hi]

@[simp] theorem opField_encXYN (op x y n : Nibble) : opField (encXYN op x y n) = op := by
  apply BitVec.eq_of_getLsbD_eq
  intro i hi
  simp [opField, getLsbD_encXYN, hi, show ¬ 12 + i < 4 by omega, show ¬ 12 + i < 8 by omega]

@[simp] theorem xField_encXYN (op x y n : Nibble) : xField (encXYN op x y n) = x := by
  apply BitVec.eq_of_getLsbD_eq
  intro i hi
  simp [xField, getLsbD_encXYN, hi, show ¬ 8 + i < 4 by omega, show 8 + i < 12 by omega]

@[simp] theorem yField_encXYN (op x y n : Nibble) : yField (encXYN op x y n) = y := by
  apply BitVec.eq_of_getLsbD_eq
  intro i hi
  simp [yField, getLsbD_encXYN, hi, show 4 + i < 8 by omega]

@[simp] theorem nField_encXYN (op x y n : Nibble) : nField (encXYN op x y n) = n := by
  apply BitVec.eq_of_getLsbD_eq
  intro i hi
  simp [nField, getLsbD_encXYN, hi]

/-! ## Rows of the opcode map (30_encoding.md R84) -/

/-- Two words with equal bits 0..15 are equal. -/
theorem word_ext {v w : Word} (h : ∀ i, i < 16 → v.getLsbD i = w.getLsbD i) : v = w :=
  BitVec.eq_of_getLsbD_eq h

/-- The bits of the masks of R84. -/
theorem mask_F000 : ∀ i, i < 16 → (0xF000 : Word).getLsbD i = decide (12 ≤ i) := by decide

theorem mask_F0FF : ∀ i, i < 16 → (0xF0FF : Word).getLsbD i = decide (12 ≤ i ∨ i < 8) := by decide

theorem mask_F00F : ∀ i, i < 16 → (0xF00F : Word).getLsbD i = decide (12 ≤ i ∨ i < 4) := by decide

/-- A word lies in a row when the row's pattern is its masked bits. -/
theorem OpcodeRow.holds_of_eq {m : String} {w mask pattern : Word} (h : w &&& mask = pattern) :
    OpcodeRow.holds ⟨m, mask, pattern⟩ w = true := by
  simpa [OpcodeRow.holds] using h

/-- A row that fixes the major opcode only holds every word of format NNN with it. -/
theorem encNNN_in_row {m : String} (op : Nibble) (addr : Addr) :
    OpcodeRow.holds ⟨m, 0xF000, encNNN op 0⟩ (encNNN op addr) = true := by
  apply OpcodeRow.holds_of_eq
  apply word_ext
  intro i hi
  rw [BitVec.getLsbD_and, mask_F000 i hi]
  simp only [encNNN, BitVec.getLsbD_append]
  by_cases h1 : i < 4 <;> by_cases h2 : i < 8 <;> by_cases h3 : i < 12 <;>
    first | omega | simp [*, show (12 ≤ i) = ¬ i < 12 by simp]

/-- A row that fixes the major opcode only holds every word of format XKK with it. -/
theorem encXKK_in_row {m : String} (op x : Nibble) (kk : Byte) :
    OpcodeRow.holds ⟨m, 0xF000, encXKK op 0 0⟩ (encXKK op x kk) = true := by
  apply OpcodeRow.holds_of_eq
  apply word_ext
  intro i hi
  rw [BitVec.getLsbD_and, mask_F000 i hi]
  simp only [getLsbD_encXKK]
  by_cases h1 : i < 4 <;> by_cases h2 : i < 8 <;> by_cases h3 : i < 12 <;>
    first | omega | simp [*, show (12 ≤ i) = ¬ i < 12 by simp]

/-- A row that fixes the major opcode and `kk` holds every word with them. -/
theorem encXKK_in_minor_row {m : String} (op x : Nibble) (kk : Byte) :
    OpcodeRow.holds ⟨m, 0xF0FF, encXKK op 0 kk⟩ (encXKK op x kk) = true := by
  apply OpcodeRow.holds_of_eq
  apply word_ext
  intro i hi
  rw [BitVec.getLsbD_and, mask_F0FF i hi]
  simp only [getLsbD_encXKK]
  by_cases h1 : i < 4 <;> by_cases h2 : i < 8 <;> by_cases h3 : i < 12 <;>
    first | omega | simp [*, show (12 ≤ i) = ¬ i < 12 by simp]

/-- A row that fixes the major opcode only holds every word of format XYN with it. -/
theorem encXYN_in_major_row {m : String} (op x y n : Nibble) :
    OpcodeRow.holds ⟨m, 0xF000, encXYN op 0 0 0⟩ (encXYN op x y n) = true := by
  apply OpcodeRow.holds_of_eq
  apply word_ext
  intro i hi
  rw [BitVec.getLsbD_and, mask_F000 i hi]
  simp only [getLsbD_encXYN]
  by_cases h1 : i < 4 <;> by_cases h2 : i < 8 <;> by_cases h3 : i < 12 <;>
    first | omega | simp [*, show (12 ≤ i) = ¬ i < 12 by simp]

/-- A row that fixes the major opcode and `n` holds every word with them. -/
theorem encXYN_in_row {m : String} (op x y n : Nibble) :
    OpcodeRow.holds ⟨m, 0xF00F, encXYN op 0 0 n⟩ (encXYN op x y n) = true := by
  apply OpcodeRow.holds_of_eq
  apply word_ext
  intro i hi
  rw [BitVec.getLsbD_and, mask_F00F i hi]
  simp only [getLsbD_encXYN]
  by_cases h1 : i < 4 <;> by_cases h2 : i < 8 <;> by_cases h3 : i < 12 <;>
    first | omega | simp [*, show (12 ≤ i) = ¬ i < 12 by simp]

/-! ## Fields of a word known through a mask -/

/-- The major opcode of a word is known from its bits under a mask that keeps bits 15..12. -/
theorem opField_of_mask {w mask p : Word} (h : w &&& mask = p) (hm : ∀ i, i < 4 → mask.getLsbD (12 + i) = true) :
    opField w = opField p := by
  apply BitVec.eq_of_getLsbD_eq
  intro i hi
  simp [opField, ← h, BitVec.getLsbD_and, hm i hi]

/-- The nibble `n` of a word is known from its bits under a mask that keeps bits 3..0. -/
theorem nField_of_mask {w mask p : Word} (h : w &&& mask = p) (hm : ∀ i, i < 4 → mask.getLsbD (0 + i) = true) :
    nField w = nField p := by
  apply BitVec.eq_of_getLsbD_eq
  intro i hi
  have := hm i hi
  simp_all [nField, ← h, BitVec.getLsbD_and]

/-- The byte `kk` of a word is known from its bits under a mask that keeps bits 7..0. -/
theorem kkField_of_mask {w mask p : Word} (h : w &&& mask = p) (hm : ∀ i, i < 8 → mask.getLsbD (0 + i) = true) :
    kkField w = kkField p := by
  apply BitVec.eq_of_getLsbD_eq
  intro i hi
  have := hm i hi
  simp_all [kkField, ← h, BitVec.getLsbD_and]

end Sys2Proof
end

