-- ==== Sys2Proof/Laws/PerInstr.lean ====
section
/-! SUPPORT. Facts proved instruction by instruction. Family EncodesInRow: the word of every instruction lies in that
instruction's own row of the opcode map (30_encoding.md R84). -/

namespace Sys2Proof.Laws

/-- The row of the opcode map an instruction belongs to (30_encoding.md R84). -/
def rowOf : Instr → OpcodeRow
  | .cls => ⟨"CLS", 0xFFFF, 0x00E0⟩
  | .ret => ⟨"RET", 0xFFFF, 0x00EE⟩
  | .jmp _ => ⟨"JMP_addr", 0xF000, 0x1000⟩
  | .call _ => ⟨"CALL_addr", 0xF000, 0x2000⟩
  | .skeImm _ _ => ⟨"SKE_Vx_kk", 0xF000, 0x3000⟩
  | .skneImm _ _ => ⟨"SKNE_Vx_kk", 0xF000, 0x4000⟩
  | .skeReg _ _ => ⟨"SKE_Vx_Vy", 0xF00F, 0x5000⟩
  | .movImm _ _ => ⟨"MOV_Vx_kk", 0xF000, 0x6000⟩
  | .addImm _ _ => ⟨"ADD_Vx_kk", 0xF000, 0x7000⟩
  | .movReg _ _ => ⟨"MOV_Vx_Vy", 0xF00F, 0x8000⟩
  | .orReg _ _ => ⟨"OR_Vx_Vy", 0xF00F, 0x8001⟩
  | .andReg _ _ => ⟨"AND_Vx_Vy", 0xF00F, 0x8002⟩
  | .xorReg _ _ => ⟨"XOR_Vx_Vy", 0xF00F, 0x8003⟩
  | .addReg _ _ => ⟨"ADD_Vx_Vy", 0xF00F, 0x8004⟩
  | .subReg _ _ => ⟨"SUB_Vx_Vy", 0xF00F, 0x8005⟩
  | .shr _ => ⟨"SHR_Vx", 0xF00F, 0x8006⟩
  | .rsubReg _ _ => ⟨"RSUB_Vx_Vy", 0xF00F, 0x8007⟩
  | .shl _ => ⟨"SHL_Vx", 0xF00F, 0x800E⟩
  | .skneReg _ _ => ⟨"SKNE_Vx_Vy", 0xF00F, 0x9000⟩
  | .movI _ => ⟨"MOV_I_addr", 0xF000, 0xA000⟩
  | .jmpV0 _ => ⟨"JMP_V0_addr", 0xF000, 0xB000⟩
  | .rnd _ _ => ⟨"RND_Vx_kk", 0xF000, 0xC000⟩
  | .drw _ _ _ => ⟨"DRW_Vx_Vy_n", 0xF000, 0xD000⟩
  | .movFromDT _ => ⟨"MOV_Vx_DT", 0xF0FF, 0xF007⟩
  | .movToDT _ => ⟨"MOV_DT_Vx", 0xF0FF, 0xF015⟩
  | .addI _ => ⟨"ADD_I_Vx", 0xF0FF, 0xF01E⟩
  | .font _ => ⟨"FONT_Vx", 0xF0FF, 0xF029⟩
  | .bcd _ => ⟨"BCD_Vx", 0xF0FF, 0xF033⟩
  | .str _ => ⟨"STR__I__Vx", 0xF0FF, 0xF055⟩
  | .ld _ => ⟨"LD_Vx__I", 0xF0FF, 0xF065⟩

/-- The row is one of the map's, and it holds the instruction's word. -/
def EncodesInRow.Statement (i : Instr) : Prop := rowOf i ∈ opcodeRows ∧ (rowOf i).holds (encode i) = true

/-- Row `k` of the map, counted from 0, is a row of the map. -/
theorem row_listed (k : Nat) {r : OpcodeRow} (h : opcodeRows[k]? = some r) : r ∈ opcodeRows :=
  List.mem_of_getElem? h

theorem EncodesInRow.cls : EncodesInRow.Statement .cls := ⟨row_listed 0 rfl, by decide⟩
theorem EncodesInRow.ret : EncodesInRow.Statement .ret := ⟨row_listed 1 rfl, by decide⟩
theorem EncodesInRow.jmp (addr : Addr) : EncodesInRow.Statement (.jmp addr) := ⟨row_listed 2 rfl, encNNN_in_row _ _⟩
theorem EncodesInRow.call (addr : Addr) : EncodesInRow.Statement (.call addr) := ⟨row_listed 3 rfl, encNNN_in_row _ _⟩
theorem EncodesInRow.skeImm (x : Nibble) (kk : Byte) : EncodesInRow.Statement (.skeImm x kk) := ⟨row_listed 4 rfl, encXKK_in_row _ _ _⟩
theorem EncodesInRow.skneImm (x : Nibble) (kk : Byte) : EncodesInRow.Statement (.skneImm x kk) := ⟨row_listed 5 rfl, encXKK_in_row _ _ _⟩
theorem EncodesInRow.skeReg (x : Nibble) (y : Nibble) : EncodesInRow.Statement (.skeReg x y) := ⟨row_listed 6 rfl, encXYN_in_row _ _ _ _⟩
theorem EncodesInRow.movImm (x : Nibble) (kk : Byte) : EncodesInRow.Statement (.movImm x kk) := ⟨row_listed 7 rfl, encXKK_in_row _ _ _⟩
theorem EncodesInRow.addImm (x : Nibble) (kk : Byte) : EncodesInRow.Statement (.addImm x kk) := ⟨row_listed 8 rfl, encXKK_in_row _ _ _⟩
theorem EncodesInRow.movReg (x : Nibble) (y : Nibble) : EncodesInRow.Statement (.movReg x y) := ⟨row_listed 9 rfl, encXYN_in_row _ _ _ _⟩
theorem EncodesInRow.orReg (x : Nibble) (y : Nibble) : EncodesInRow.Statement (.orReg x y) := ⟨row_listed 10 rfl, encXYN_in_row _ _ _ _⟩
theorem EncodesInRow.andReg (x : Nibble) (y : Nibble) : EncodesInRow.Statement (.andReg x y) := ⟨row_listed 11 rfl, encXYN_in_row _ _ _ _⟩
theorem EncodesInRow.xorReg (x : Nibble) (y : Nibble) : EncodesInRow.Statement (.xorReg x y) := ⟨row_listed 12 rfl, encXYN_in_row _ _ _ _⟩
theorem EncodesInRow.addReg (x : Nibble) (y : Nibble) : EncodesInRow.Statement (.addReg x y) := ⟨row_listed 13 rfl, encXYN_in_row _ _ _ _⟩
theorem EncodesInRow.subReg (x : Nibble) (y : Nibble) : EncodesInRow.Statement (.subReg x y) := ⟨row_listed 14 rfl, encXYN_in_row _ _ _ _⟩
theorem EncodesInRow.shr (x : Nibble) : EncodesInRow.Statement (.shr x) := ⟨row_listed 15 rfl, encXYN_in_row _ _ _ _⟩
theorem EncodesInRow.rsubReg (x : Nibble) (y : Nibble) : EncodesInRow.Statement (.rsubReg x y) := ⟨row_listed 16 rfl, encXYN_in_row _ _ _ _⟩
theorem EncodesInRow.shl (x : Nibble) : EncodesInRow.Statement (.shl x) := ⟨row_listed 17 rfl, encXYN_in_row _ _ _ _⟩
theorem EncodesInRow.skneReg (x : Nibble) (y : Nibble) : EncodesInRow.Statement (.skneReg x y) := ⟨row_listed 18 rfl, encXYN_in_row _ _ _ _⟩
theorem EncodesInRow.movI (addr : Addr) : EncodesInRow.Statement (.movI addr) := ⟨row_listed 19 rfl, encNNN_in_row _ _⟩
theorem EncodesInRow.jmpV0 (addr : Addr) : EncodesInRow.Statement (.jmpV0 addr) := ⟨row_listed 20 rfl, encNNN_in_row _ _⟩
theorem EncodesInRow.rnd (x : Nibble) (kk : Byte) : EncodesInRow.Statement (.rnd x kk) := ⟨row_listed 21 rfl, encXKK_in_row _ _ _⟩
theorem EncodesInRow.drw (x : Nibble) (y : Nibble) (n : Nibble) : EncodesInRow.Statement (.drw x y n) := ⟨row_listed 22 rfl, encXYN_in_major_row _ _ _ _⟩
theorem EncodesInRow.movFromDT (x : Nibble) : EncodesInRow.Statement (.movFromDT x) := ⟨row_listed 23 rfl, encXKK_in_minor_row _ _ _⟩
theorem EncodesInRow.movToDT (x : Nibble) : EncodesInRow.Statement (.movToDT x) := ⟨row_listed 24 rfl, encXKK_in_minor_row _ _ _⟩
theorem EncodesInRow.addI (x : Nibble) : EncodesInRow.Statement (.addI x) := ⟨row_listed 25 rfl, encXKK_in_minor_row _ _ _⟩
theorem EncodesInRow.font (x : Nibble) : EncodesInRow.Statement (.font x) := ⟨row_listed 26 rfl, encXKK_in_minor_row _ _ _⟩
theorem EncodesInRow.bcd (x : Nibble) : EncodesInRow.Statement (.bcd x) := ⟨row_listed 27 rfl, encXKK_in_minor_row _ _ _⟩
theorem EncodesInRow.str (x : Nibble) : EncodesInRow.Statement (.str x) := ⟨row_listed 28 rfl, encXKK_in_minor_row _ _ _⟩
theorem EncodesInRow.ld (x : Nibble) : EncodesInRow.Statement (.ld x) := ⟨row_listed 29 rfl, encXKK_in_minor_row _ _ _⟩

end Sys2Proof.Laws
end

