-- ==== Sys2Proof/Tests/Slice0.lean ====
section
/-! SUPPORT. Tests of one event each. Expected values are those of spec/95_test_vectors.md (section named at each group) or
worked by hand from the rule named; none is the model's own answer. -/

namespace Sys2Proof.Tests

open Sys2Proof.Machine

/-! ## Helpers -/

/-- The reset state with one instruction word at 0x200 (95_test_vectors.md, Conventions). -/
def start (w : Nat) : State := State.reset.withFetchWord 16 w

/-- The listed registers set. -/
def withV (s : State) (l : List (Nibble × Byte)) : State := l.foldl (fun t p => setV t p.1 p.2) s

/-- Bytes placed in memory. -/
def withM (s : State) (base : Nat) (bs : List Byte) : State := setMem s (writeRun s.mem base bs)

/-- The listed cells lit. -/
def withPx (s : State) (cells : List (Fin 32 × Fin 64)) : State :=
  setPx s (cells.foldl (fun g p => putPx g p.1 p.2 true) s.Px)

/-- The state after one step. -/
def after (s : State) : State :=
  match step s with
  | .next t => t
  | .fault _ => s
  | .refused _ => s

/-- The numbers of lit cells in the listed rows, and the lit columns of one row. -/
def litColumns (s : State) (r : Fin 32) : List (Fin 64) := (List.finRange 64).filter (fun c => getPx s.Px r c)

/-! ## Well-formedness: each check refuses an ill-formed term -/

theorem test_wordWellFormed_refuses : wordWellFormed 0xFFFF = false ∧ wordWellFormed 0x5121 = false := by decide
theorem test_wordWellFormed_accepts : wordWellFormed 0x00E0 = true ∧ wordWellFormed 0xF165 = true := by decide
theorem test_imageFits_refuses : imageFits (List.replicate 3585 0xAB) = false := by
  rw [imageFits, List.length_replicate]; decide
theorem test_imageFits_accepts : imageFits (List.replicate 3584 0xAB) = true := by
  rw [imageFits, List.length_replicate]; decide
theorem test_Memory_wf_refuses :
    ¬ Memory.wf [(0x300, 0)] ∧ ¬ Memory.wf [(0x301, 1), (0x300, 1)] ∧ ¬ Memory.wf [(4096, 1)] := by decide

/-! ## Decoding: a word of every row of 30_encoding.md R84, written out from its pattern -/

theorem test_decode_cls : decode 0x00E0 = some .cls := by decide
theorem test_decode_ret : decode 0x00EE = some .ret := by decide
theorem test_decode_jmp : decode 0x1234 = some (.jmp 0x234) := by decide
theorem test_decode_call : decode 0x2345 = some (.call 0x345) := by decide
theorem test_decode_skeImm : decode 0x3A07 = some (.skeImm 0xA 0x07) := by decide
theorem test_decode_skneImm : decode 0x4B18 = some (.skneImm 0xB 0x18) := by decide
theorem test_decode_skeReg : decode 0x5120 = some (.skeReg 1 2) := by decide
theorem test_decode_movImm : decode 0x6C5D = some (.movImm 0xC 0x5D) := by decide
theorem test_decode_addImm : decode 0x7A02 = some (.addImm 0xA 0x02) := by decide
theorem test_decode_movReg : decode 0x8120 = some (.movReg 1 2) := by decide
theorem test_decode_orReg : decode 0x8341 = some (.orReg 3 4) := by decide
theorem test_decode_andReg : decode 0x8562 = some (.andReg 5 6) := by decide
theorem test_decode_xorReg : decode 0x8783 = some (.xorReg 7 8) := by decide
theorem test_decode_addReg : decode 0x89A4 = some (.addReg 9 0xA) := by decide
theorem test_decode_subReg : decode 0x8BC5 = some (.subReg 0xB 0xC) := by decide
theorem test_decode_shr : decode 0x81A6 = some (.shr 1) := by decide
theorem test_decode_rsubReg : decode 0x8DE7 = some (.rsubReg 0xD 0xE) := by decide
theorem test_decode_shl : decode 0x810E = some (.shl 1) := by decide
theorem test_decode_skneReg : decode 0x9120 = some (.skneReg 1 2) := by decide
theorem test_decode_movI : decode 0xA2F0 = some (.movI 0x2F0) := by decide
theorem test_decode_jmpV0 : decode 0xB300 = some (.jmpV0 0x300) := by decide
theorem test_decode_rnd : decode 0xC307 = some (.rnd 3 0x07) := by decide
theorem test_decode_drw : decode 0xD125 = some (.drw 1 2 5) := by decide
theorem test_decode_movFromDT : decode 0xF407 = some (.movFromDT 4) := by decide
theorem test_decode_movToDT : decode 0xF315 = some (.movToDT 3) := by decide
theorem test_decode_addI : decode 0xF21E = some (.addI 2) := by decide
theorem test_decode_font : decode 0xF029 = some (.font 0) := by decide
theorem test_decode_bcd : decode 0xF533 = some (.bcd 5) := by decide
theorem test_decode_str : decode 0xF155 = some (.str 1) := by decide
theorem test_decode_ld : decode 0xF265 = some (.ld 2) := by decide

/-- The undecodable words of 95_test_vectors.md 2.1. -/
theorem test_decode_undecodable :
    ([0x0000, 0x00E1, 0x0123, 0x5121, 0x8128, 0x812F, 0x9121, 0xE19E, 0xE1A1, 0xF10A, 0xF118, 0xF100, 0xFFFF] : List Word).all
      (fun w => decode w == none) = true := by decide

theorem test_decodeBytes : decodeBytes [0x12, 0x34, 0x56] = .instr (.jmp 0x234) [0x56] ∧
    decodeBytes [0xFF, 0xFF] = .rejected (.unmatched 0xFFFF) ∧ decodeBytes [0x12] = .rejected .truncated := by decide
theorem test_decodeTableWord : decodeTableWord 16 0x8120 = some (.movReg 1 2) := by decide

/-- The spellings R91 quotes from the source, and a word's spelling. -/
theorem test_asm : asm (.movImm 0 5) = "MOV V0,0x05" ∧ asm (.addReg 0 1) = "ADD V0,V1" ∧ asm (.rnd 0xA 0) = "RND VA,0x00" ∧
    (decode 0xB300).map asm = some "JMP V0,0x300" ∧ (decode 0xF155).map asm = some "STR [I],V1" := by decide

/-! ## The step cycle (95_test_vectors.md 2.1) -/

theorem test_step_mov : let t := after (start 0x6005); getV t 0 = 5 ∧ t.pc = 0x202 ∧ t.halt = false := by decide
theorem test_step_odd_fetch :
    let t := after (withM { State.reset with pc := 0x201 } 0x201 [0x60, 0x42]); getV t 0 = 0x42 ∧ t.pc = 0x203 := by decide
theorem test_step_fetchBounds : hostReadRecord (after { State.reset with pc := 0xFFF }) = (true, 2, 0, 0x0FFF) := by decide
theorem test_step_last_fetch :
    let t := after { State.reset with pc := 0xFFE }; hostReadRecord t = (true, 1, 0x0000, 0x0FFE) ∧ t.pc = 0xFFE := by decide
theorem test_step_decodeFailure :
    let t := after (start 0xF10A); hostReadRecord t = (true, 1, 0xF10A, 0x200) ∧ t.pc = 0x200 := by decide
theorem test_step_halted : let s := raise .decodeFailure 0xFFFF (start 0x6005); after s = s := by decide

/-! ## Jumps, call, return (95_test_vectors.md 2.2) -/

theorem test_jmp : (after (start 0x1234)).pc = 0x234 := by decide
theorem test_jmp_self : after (start 0x1200) = start 0x1200 := by decide
theorem test_jmpV0 : (after (withV (start 0xB300) [(0, 4)])).pc = 0x304 := by decide
theorem test_jmpV0_unreduced : (after (withV (start 0xBFFF) [(0, 0xFF)])).pc = 0x10FE := by decide
theorem test_call : let t := after (start 0x2300);
    t.sp = 0xFFE ∧ readByte t.mem 0xFFE = 0x02 ∧ readByte t.mem 0xFFF = 0x02 ∧ t.pc = 0x300 := by decide
theorem test_call_overflow : let t := after { start 0x2300 with sp := 0xFE0 };
    hostReadRecord t = (true, 5, 0x2300, 0x200) ∧ t.sp = 0xFE0 ∧ t.pc = 0x200 ∧ t.mem = (start 0x2300).mem := by decide
theorem test_ret : let t := after (withM { start 0x00EE with sp := 0xFFC } 0xFFC [0xAB, 0xCD]);
    t.pc = 0xABCD ∧ t.sp = 0xFFE := by decide
theorem test_ret_underflow : hostReadRecord (after (start 0x00EE)) = (true, 6, 0x00EE, 0x200) := by decide

/-! ## Moves (95_test_vectors.md 2.3) -/

theorem test_movImm_vf : getV (after (start 0x6FAB)) 0xF = 0xAB := by decide
theorem test_movReg : getV (after (withV (start 0x8120) [(2, 0x7E)])) 1 = 0x7E := by decide
theorem test_movI : (after (start 0xA2F0)).I = 0x02F0 := by decide
theorem test_movToDT : (after (withV (start 0xF315) [(3, 0x3C)])).DT = 60 := by decide
theorem test_movFromDT : let t := after { start 0xF407 with DT := 17 }; getV t 4 = 17 ∧ t.DT = 17 := by decide

/-! ## Arithmetic, logic, shifts (95_test_vectors.md 2.4) -/

theorem test_addImm : let t := after (withV (start 0x7A01) [(0xA, 0xFF)]); getV t 0xA = 0 ∧ getV t 0xF = 0 := by decide
theorem test_addReg : let t := after (withV (start 0x8014) [(0, 0xF0), (1, 0x20)]); getV t 0 = 0x10 ∧ getV t 0xF = 1 := by decide
theorem test_addReg_vf : getV (after (withV (start 0x8F14) [(0xF, 0x90), (1, 0x90)])) 0xF = 1 := by decide
theorem test_addI : (after (withV { start 0xF21E with I := 0xFFF0 } [(2, 0xFF)])).I = 0x00EF := by decide
theorem test_subReg : let t := after (withV (start 0x8015) [(0, 3), (1, 5)]); getV t 0 = 0xFE ∧ getV t 0xF = 0 := by decide
theorem test_subReg_equal : let t := after (withV (start 0x8015) [(0, 7), (1, 7)]); getV t 0 = 0 ∧ getV t 0xF = 1 := by decide
theorem test_rsubReg : let t := after (withV (start 0x8017) [(0, 3), (1, 5), (0xF, 0x55)]);
    getV t 0 = 2 ∧ getV t 0xF = 0x55 := by decide
theorem test_orReg : getV (after (withV (start 0x8011) [(0, 0x0F), (1, 0xF0)])) 0 = 0xFF := by decide
theorem test_andReg : getV (after (withV (start 0x8012) [(0, 0x3C), (1, 0x0F)])) 0 = 0x0C := by decide
theorem test_xorReg : getV (after (withV (start 0x8013) [(0, 0xFF), (1, 0x0F)])) 0 = 0xF0 := by decide
theorem test_shr : let t := after (withV (start 0x81A6) [(1, 3), (0xA, 0xFF)]);
    getV t 1 = 1 ∧ getV t 0xF = 1 ∧ getV t 0xA = 0xFF := by decide
theorem test_shr_vf : getV (after (withV (start 0x8F06) [(0xF, 0xFF)])) 0xF = 0 := by decide
theorem test_shl : let t := after (withV (start 0x810E) [(1, 0x81)]); getV t 1 = 2 ∧ getV t 0xF = 1 := by decide
theorem test_shl_vf : getV (after (withV (start 0x8F0E) [(0xF, 0x80)])) 0xF = 2 := by decide

/-- `0xC300` gives `V3 = 0` for every draw. -/
theorem test_rnd_zero : getV (after (withV (start 0xC300) [(3, 0x99)])) 3 = 0 := by
  show boundedDraw (Config.freeDraw 0) 0 = 0
  simp [boundedDraw, Nat.mod_one]

/-- `0xC305`: 2 and 3 are admissible, the bound is no mask. -/
theorem test_rnd_bound_is_no_mask : boundedDraw 2 5 = 2 ∧ boundedDraw 3 5 = 3 ∧ boundedDraw 6 5 = 0 := by decide

/-! ## Skips (95_test_vectors.md 2.5) -/

theorem test_skeImm : (after (withV (start 0x3A07) [(0xA, 7)])).pc = 0x204 := by decide
theorem test_skneImm : (after (withV (start 0x4A07) [(0xA, 7)])).pc = 0x202 := by decide
theorem test_skeReg : (after (withV (start 0x5120) [(1, 9), (2, 8)])).pc = 0x202 := by decide
theorem test_skneReg : (after (withV (start 0x9120) [(1, 1), (2, 2)])).pc = 0x204 := by decide

/-! ## Display (95_test_vectors.md 2.6) -/

theorem test_cls : let t := after (withPx (withV (start 0x00E0) [(0xF, 7)]) [(3, 5)]);
    t.Px = clearGrid ∧ getV t 0xF = 7 := by decide
theorem test_drw_wraps :
    let t := after (withM (withV { start 0xD011 with I := 0x300 } [(0, 67), (1, 250)]) 0x300 [0x81]);
    getV t 0xF = 0 ∧ litColumns t 26 = [3, 10] := by decide
theorem test_drw_outside : let t := after (withV { start 0xD012 with I := 0xFFF } [(0xF, 9)]);
    hostReadRecord t = (true, 3, 0xD012, 0x200) ∧ getV t 0xF = 9 ∧ t.pc = 0x200 := by decide

/-! ## Memory instructions (95_test_vectors.md 2.7) -/

theorem test_bcd : let t := after (withV { start 0xF533 with I := 0x300 } [(5, 229)]);
    readByte t.mem 0x300 = 2 ∧ readByte t.mem 0x301 = 2 ∧ readByte t.mem 0x302 = 9 := by decide
theorem test_bcd_font : (hostReadRecord (after { start 0xF533 with I := 79 })).2.1 = 4 := by decide
theorem test_str : let t := after (withV { start 0xF155 with I := 0x300 } [(0, 0xAA), (1, 0xBB), (2, 0xCC)]);
    readByte t.mem 0x300 = 0xAA ∧ readByte t.mem 0x301 = 0xBB ∧ readByte t.mem 0x302 = 0 ∧ t.I = 0x300 := by decide
theorem test_str_outside : (hostReadRecord (after { start 0xF155 with I := 4095 })).2.1 = 3 := by decide
theorem test_ld_font : let t := after (start 0xF465);
    [getV t 0, getV t 1, getV t 2, getV t 3, getV t 4, getV t 5] = [0xF0, 0x90, 0x90, 0x90, 0xF0, 0] := by decide
theorem test_ld_outside : (hostReadRecord (after { start 0xFF65 with I := 4081 })).2.1 = 3 := by decide
theorem test_font : (after (withV (start 0xF029) [(0, 0x1A)])).I = 0x32 := by decide

/-! ## Tick and Reset (95_test_vectors.md 2.8) -/

theorem test_tick_halted : let s := { start 0x6005 with DT := 5, halt := true, fkind := .dataBounds, schedule := [.tick] };
    after s = { s with DT := 4, schedule := [] } := by decide
theorem test_tick_floor : (tick { State.reset with DT := 0 }).DT = 0 := by decide
theorem test_reset_then_step :
    hostReadRecord (after (after { raise .dataBounds 1 State.reset with schedule := [.reset []] })) = (true, 1, 0, 0x200) := by
  decide
theorem test_reset_image : let s := resetWith [0x60, 0x05, 0x00, 0xFF];
    s.mem = [(0x200, 0x60), (0x201, 0x05), (0x203, 0xFF)] ∧ s.pc = 0x200 ∧ s.sp = 0x1000 := by decide

/-! ## Witnesses: for every statement with hypotheses, states and operands that meet them, at the boundary of each clause -/

theorem witness_DecodedWordReencodes :
    (∃ w i, decode w = some i ∧ ∀ x, i ≠ .shr x ∧ i ≠ .shl x) ∧ (∃ w x, decode w = some (.shr x)) ∧
    (∃ w x, decode w = some (.shl x)) :=
  ⟨⟨0x1234, .jmp 0x234, by decide, by simp⟩, ⟨0x81A6, 1, by decide⟩, ⟨0x81AE, 1, by decide⟩⟩

theorem witness_OpcodeRowsAreDisjoint : ∃ r ∈ opcodeRows, r.holds 0x81A6 = true :=
  ⟨⟨"SHR_Vx", 0xF00F, 0x8006⟩, by decide, by decide⟩

theorem witness_ShiftsIgnoreNibbleTwo : (0x81F6 : Word) &&& 0xF00F = 0x8006 ∧ (0x81FE : Word) &&& 0xF00F = 0x800E := by decide

/-- StepRunsDecodedInstruction at the last fetch address, both clauses of the schedule. -/
theorem witness_StepRunsDecodedInstruction :
    let s := State.withFetchWord { State.reset with pc := 0xFFE } 16 0x6005
    (s.halt = false ∧ s.pc.toNat ≤ 4094 ∧ decode (readWord s.mem s.pc.toNat) = some (.movImm 0 5) ∧ s.schedule = []) ∧
    decode (readWord { s with schedule := [.step, .tick] }.mem s.pc.toNat) = some (.movImm 0 5) := by decide

/-- StepPerformsScheduledEvent: nothing listed, and each event, the last two on a halted block. -/
theorem witness_StepPerformsScheduledEvent :
    let s := raise .dataBounds 0xF155 { State.reset with DT := 2 }
    State.reset.schedule = [] ∧ ({ State.reset with schedule := [.step] } : State).schedule = .step :: [] ∧
    (after { s with schedule := [.tick, .step] }).DT = 1 ∧ (after { s with schedule := [.reset [], .step] }).schedule = [.step] ∧
    (after { s with schedule := [.reset []] }).halt = false := by decide

theorem witness_FetchIsBigEndianOrFails :
    (∃ s : State, s.schedule = [] ∧ s.halt = false ∧ s.pc.toNat = 4094) ∧
    ∃ s : State, s.schedule = [] ∧ s.halt = false ∧ s.pc.toNat = 4095 :=
  ⟨⟨{ State.reset with pc := 0xFFE }, by decide⟩, ⟨{ State.reset with pc := 0xFFF }, by decide⟩⟩

theorem witness_UndecodableWordHalts :
    let s := { State.reset with pc := 0xFFE }
    s.schedule = [] ∧ s.halt = false ∧ s.pc.toNat ≤ 4094 ∧ wordWellFormed (readWord s.mem s.pc.toNat) = false := by decide

/-- HaltedBlockIgnoresStep and FailureLastsUntilReset: a halted state that runs a Step and a Tick. -/
theorem witness_FailureLastsUntilReset :
    let s := raise .dataBounds 0xF155 { State.reset with DT := 2 }
    s.halt = true ∧ s.schedule = [] ∧ (∀ prog, Event.reset prog ∉ [Event.step, .tick]) ∧
    runEvents [.step, .tick] s = .next { s with DT := 1 } :=
  ⟨rfl, rfl, by simp, rfl⟩

/-- StepCompletesOrFails: a running state of each outcome. -/
theorem witness_StepCompletesOrFails :
    (start 0x6005).halt = false ∧ (after (start 0x6005)).halt = false ∧
    State.reset.halt = false ∧ (after State.reset).halt = true := by decide

/-- FailingStepKeepsState: the fetch fails, and a fetched word fails. -/
theorem witness_FailingStepKeepsState :
    (∃ s t : State, s.halt = false ∧ stepEvent s = .next t ∧ t.halt = true ∧ fetch s = none) ∧
    ∃ s t : State, s.halt = false ∧ stepEvent s = .next t ∧ t.halt = true ∧ fetch s = some 0 :=
  ⟨⟨{ State.reset with pc := 0xFFF }, _, rfl, rfl, rfl, rfl⟩, ⟨State.reset, _, rfl, rfl, rfl, by decide⟩⟩

theorem witness_PlacedWordIsExecuted : ({ State.reset with pc := 0xFFE } : State).pc.toNat ≤ 4094 := by decide

theorem witness_JumpLoadsAddress :
    (0x1FFF : Word) &&& 0xF000 = 0x1000 ∧ (0x200 : Addr).toNat = State.reset.pc.toNat := by decide

/-- CallPushesReturnAddress and CallThenReturnComesBack: the stack with one slot left, and empty. -/
theorem witness_CallPushesReturnAddress :
    (∃ s : State, 0xFE2 = s.sp.toNat ∧ s.sp.toNat ≤ 0x1000) ∧ ∃ s : State, 0xFE2 ≤ s.sp.toNat ∧ s.sp.toNat = 0x1000 :=
  ⟨⟨{ State.reset with sp := 0xFE2 }, by decide⟩, ⟨State.reset, by decide⟩⟩

theorem witness_ReturnPopsAddress : ({ State.reset with sp := 0xFFE } : State).sp.toNat ≤ 0xFFE := by decide

/-- Each clause of StackFailures at its boundary, by its outcome. -/
theorem witness_StackFailures :
    let kind := fun (o : Host.Outcome State Fault Refusal) => match o with | .next t => t.fkind | _ => .noFailure
    let at_ := fun (sp : Word) => { State.reset with sp := sp }
    kind (exec (.call 0x300) (at_ 0xFE1)) = .stackOverflow ∧ kind (exec (.call 0x300) (at_ 0x1001)) = .dataBounds ∧
    kind (exec .ret (at_ 0x1000)) = .stackUnderflow ∧ kind (exec .ret (at_ 0xFFF)) = .dataBounds := by decide

theorem witness_MovesLoadTheRegister :
    (0x6FAB : Word) &&& 0xF000 = 0x6000 ∧ (0x8FF0 : Word) &&& 0xF00F = 0x8000 ∧ (0xFF07 : Word) &&& 0xF0FF = 0xF007 := by decide

/-- MoveLoadsIndex and MoveSetsTimer. -/
theorem witness_MoveLoadsIndex : (0xAFFF : Word) &&& 0xF000 = 0xA000 ∧ (0xFF15 : Word) &&& 0xF0FF = 0xF015 := by decide

/-- MoveLoadsIndex, its last clause: a Step that takes `I` from 4095 to 4096. -/
theorem witness_MoveLoadsIndex_above :
    ∃ s t : State, stepEvent s = .next t ∧ t.I ≠ s.I ∧ t.I.toNat = 4096 :=
  ⟨withV { start 0xF21E with I := 4095 } [(2, 1)], _, rfl, by decide, by decide⟩

/-- The two clauses of AddRegisterSetsCarry, SubRegisterSetsNotBorrow, ShiftRightHalves and ShiftLeftDoubles. -/
theorem witness_destination : (0xE : Nibble) ≠ vf ∧ (0xF : Nibble) = vf := by decide

/-- RandomStaysInRange with the bound 0, RandomAdmitsWholeRange at the bound. -/
theorem witness_RandomAdmitsWholeRange : (0 : Byte).toNat ≤ (0 : Byte).toNat ∧ (0xFF : Byte).toNat ≤ (0xFF : Byte).toNat := by decide

/-- SkipOnImmediate and SkipOnRegister. -/
theorem witness_SkipOnRegister :
    (0x3A07 : Word) &&& 0xF000 = 0x3000 ∧ (0x4A07 : Word) &&& 0xF000 = 0x4000 ∧
    (0x5120 : Word) &&& 0xF00F = 0x5000 ∧ (0x9120 : Word) &&& 0xF00F = 0x9000 ∧
    ((0x5121 : Word) &&& 0xF000 = 0x5000 ∧ nField 0x5121 ≠ 0) ∧ (0x912F : Word) &&& 0xF000 = 0x9000 ∧ nField 0x912F ≠ 0 := by
  decide

/-- The states of the statements about DRW: the sprite of height 0 whatever `I` holds, and the last that fits. -/
theorem witness_DrawTogglesTheSprite :
    ((0 : Nibble) = 0 ∧ indexAddr { State.reset with I := 0xFFFF } = 65535) ∧
    (0xF : Nibble) ≠ 0 ∧ indexAddr { State.reset with I := 4081 } + (0xF : Nibble).toNat = 4096 := by decide

/-- A glyph drawn at the origin: a covered cell, unlit or lit before, and one not covered. -/
theorem witness_DrawCovers :
    DrawCovers State.reset 0 1 5 0 0 ∧ getPx State.reset.Px 0 0 = false ∧ getPx (withPx State.reset [(0, 0)]).Px 0 0 = true ∧
    ¬ DrawCovers State.reset 0 1 0 0 0 ∧ (0 : Nibble) ≠ vf ∧ (1 : Nibble) ≠ vf := by
  refine ⟨⟨0, 0, by decide, by decide, by decide, by decide, by decide⟩, by decide, by decide, ?_, by decide, by decide⟩
  rintro ⟨row, col, h, -⟩
  exact absurd h (Nat.not_lt_zero row)

theorem witness_BcdStoresDigits :
    indexAddr { State.reset with I := 80 } = 80 ∧ indexAddr { State.reset with I := 4093 } + 3 = 4096 := by decide

/-- StoreWritesRegisters, LoadReadsRegisters and StoreThenLoadRestores, whose state between may be the stored one itself. -/
theorem witness_StoreThenLoadRestores :
    indexAddr { State.reset with I := 80 } = 80 ∧ indexAddr { State.reset with I := 4080 } + (0xF : Nibble).toNat = 4095 ∧
    (0 : Nibble).toNat < (1 : Nibble).toNat ∧ (0xF : Nibble).toNat ≤ (0xF : Nibble).toNat ∧
    SameBytes State.reset State.reset ∧ State.reset.I = State.reset.I :=
  ⟨by decide, by decide, by decide, by decide, fun _ => rfl, rfl⟩

/-- The clauses of StoresFailOutsideWritableMemory and ReadsFailOutsideMemory at their boundaries. -/
theorem witness_StoresFailOutsideWritableMemory :
    indexAddr { State.reset with I := 4094 } = 4094 ∧ indexAddr { State.reset with I := 79 } = 79 ∧
    indexAddr { State.reset with I := 4081 } + (0xF : Nibble).toNat = 4096 ∧
    ((1 : Nibble) ≠ 0 ∧ 4096 < indexAddr { State.reset with I := 4096 } + (1 : Nibble).toNat) := by decide

theorem witness_FontIntact : FontIntact State.reset := by
  show ∀ a, a < 80 → readByte State.reset.mem a = fontTable.getD a 0
  decide

theorem witness_ResetLoadsImage :
    ([] : List Byte).length ≤ 3584 ∧ (List.replicate 3584 (0xAB : Byte)).length ≤ 3584 ∧
    3584 < (List.replicate 3585 (0xAB : Byte)).length := by
  rw [List.length_replicate, List.length_replicate]; decide

/-- ResetLoadsImage, its last clause: a halted state with registers, cells and timer set. -/
theorem witness_ResetLoadsImage_event :
    let s := raise .dataBounds 0xF155 { withPx (withV State.reset [(3, 7)]) [(3, 5)] with I := 9, DT := 2, rng := 4 }
    s.halt = true ∧ getV s 3 = 7 ∧ applyEvent (.reset [0x60]) s = .next { resetWith [0x60] with rng := 4 } :=
  ⟨rfl, by decide, rfl⟩

theorem witness_InvariantKeptByEveryStep : ∃ t, Inv State.reset ∧ step State.reset = .next t :=
  ⟨_, ⟨⟨List.Pairwise.nil, fun _ h => nomatch h⟩, witness_FontIntact, by unfold SpLegal; decide, by unfold RecordLegal; decide⟩, rfl⟩

/-- RegistersChangeOnlyAsNamed and FontIsReadOnly: a Step that changes a register. -/
theorem witness_RegistersChangeOnlyAsNamed :
    ∃ t, stepEvent (start 0x6005) = .next t ∧ getV t 0 ≠ getV (start 0x6005) 0 := ⟨_, rfl, by decide⟩

/-- IndexChangesInThreeWays: a Step of each of the three. -/
theorem witness_IndexChangesInThreeWays :
    (after (start 0xA2F0)).I = 0x2F0 ∧ (after (withV { start 0xF21E with I := 0xFFF0 } [(2, 0xFF)])).I = 0x00EF ∧
    (after (withV (start 0xF029) [(0, 0xF)])).I = 75 := by decide

/-- StateHasItsWriters: a Step that changes each of `I`, `sp`, `DT`, the display, memory, the random source, and the record. -/
theorem witness_StateHasItsWriters :
    (after (start 0xA2F0)).I ≠ 0 ∧ (after (start 0x2300)).sp ≠ 0x1000 ∧ (after (withV (start 0xF315) [(3, 1)])).DT ≠ 0 ∧
    (after (withPx (start 0x00E0) [(3, 5)])).Px ≠ (withPx (start 0x00E0) [(3, 5)]).Px ∧
    (after (start 0x2300)).mem ≠ (start 0x2300).mem ∧ (after (start 0xC3FF)).rng ≠ 0 ∧
    (after State.reset).halt ≠ State.reset.halt := by decide

theorem witness_OthersFallThrough :
    let s := start 0x6005
    s.halt = false ∧ fetch s = some 0x6005 ∧ decode 0x6005 = some (.movImm 0 5) ∧ (after s).halt = false := by decide

/-- SelfJumpCompletesRun: `0x1200` at 0x200, and a list of events without a Reset. -/
theorem witness_SelfJumpCompletesRun :
    let s := start 0x1200
    Running s ∧ s.pc.toNat ≤ 4094 ∧ decode (readWord s.mem s.pc.toNat) = some (.jmp 0x200) ∧
    (0x200 : Addr).toNat = s.pc.toNat ∧ ∀ prog, Event.reset prog ∉ [Event.step, .tick] :=
  ⟨rfl, by decide, by decide, by decide, by simp⟩

end Sys2Proof.Tests
end

/-! # The scope of the block (00_scope.md): events, and the outcomes of a Step -/

namespace Sys2Proof.Machine

/-! ## Equations of one step and of a Step -/

/-- With no event listed, one step is a Step (log 1). -/
theorem step_of_schedule_nil {s : State} (h : s.schedule = []) : step s = stepEvent s := by
  rw [step, h]

/-- The first event listed is performed, on the state without it (log 1). -/
theorem step_of_schedule_cons {s : State} {e : Event} {rest : List Event} (h : s.schedule = e :: rest) :
    step s = applyEvent e { s with schedule := rest } := by
  rw [step, h]

/-- A halted block ignores a Step (40_step_cycle.md R104). -/
theorem stepEvent_of_halt {s : State} (h : s.halt = true) : stepEvent s = .next s := by
  simp [stepEvent, h]

/-- The fetch fails (40_step_cycle.md R100). -/
theorem stepEvent_of_fetch_none {s : State} (h : s.halt = false) (hf : fetch s = none) :
    stepEvent s = .next (raise .fetchBounds 0 s) := by
  simp [stepEvent, h, hf]

/-- The fetch succeeds, and its word is decoded and dispatched (40_step_cycle.md R102). -/
theorem stepEvent_of_fetch_some {s : State} {w : Word} (h : s.halt = false) (hf : fetch s = some w) :
    stepEvent s = executeWord w s := by
  simp [stepEvent, h, hf]

theorem executeWord_of_decode_some {w : Word} {i : Instr} (s : State) (h : decode w = some i) :
    executeWord w s = exec i s := by
  simp [executeWord, h]

theorem executeWord_of_decode_none {w : Word} (s : State) (h : decode w = none) :
    executeWord w s = .next (raise .decodeFailure w s) := by
  simp [executeWord, h]

/-! ## Totality: nothing faults and nothing is refused (log 7) -/

/-- Every instruction answers a next state: those with checks by the failure entry or their rule, the others by their rule. -/
theorem exec_answers_next (i : Instr) (s : State) : ∃ t, exec i s = .next t := by
  cases i with
  | ret | call addr | drw x y n | bcd x | str x | ld x => exact ⟨_, attempt_eq _ _ _ _⟩
  | _ => exact ⟨_, rfl⟩

theorem executeWord_answers_next (w : Word) (s : State) : ∃ t, executeWord w s = .next t := by
  cases hd : decode w with
  | none => exact ⟨_, executeWord_of_decode_none s hd⟩
  | some i => rw [executeWord_of_decode_some s hd]; exact exec_answers_next i s

theorem stepEvent_answers_next (s : State) : ∃ t, stepEvent s = .next t := by
  cases hh : s.halt with
  | true => exact ⟨s, stepEvent_of_halt hh⟩
  | false =>
    cases hf : fetch s with
    | none => exact ⟨_, stepEvent_of_fetch_none hh hf⟩
    | some w => rw [stepEvent_of_fetch_some hh hf]; exact executeWord_answers_next w s

theorem applyEvent_answers_next (e : Event) (s : State) : ∃ t, applyEvent e s = .next t := by
  cases e with
  | step => exact stepEvent_answers_next s
  | tick => exact ⟨tick s, rfl⟩
  | reset prog => exact ⟨resetEvent prog s, rfl⟩

theorem step_answers_next (s : State) : ∃ t, step s = .next t := by
  cases hs : s.schedule with
  | nil => rw [step_of_schedule_nil hs]; exact stepEvent_answers_next s
  | cons e rest => rw [step_of_schedule_cons hs]; exact applyEvent_answers_next e _

/-! ## The obligations -/

/-- Settles O8: one step is the first listed event, or a Step. -/
theorem stepPerformsScheduledEvent : Obligations.StepPerformsScheduledEvent :=
  fun _ => ⟨step_of_schedule_nil, fun _ _ => step_of_schedule_cons⟩

/-- Settles O15: every instruction answers a next state, so every event and every step does. -/
theorem everyStepAnswersNextState : Obligations.EveryStepAnswersNextState :=
  fun s => ⟨step_answers_next s, fun e => applyEvent_answers_next e s⟩

/-- Settles O13: a Step answers a next state, and of the cases of `stepEvent_cases` only an instruction's own effect
leaves the block running; each of the others is the failure entry. -/
theorem stepCompletesOrFails : Obligations.StepCompletesOrFails := by
  intro s hrun
  obtain ⟨t, ht⟩ := stepEvent_answers_next s
  rcases stepEvent_cases ht with ⟨hhalt, -⟩ | ⟨-, -, rfl⟩ | ⟨w, -, -, -, rfl⟩ | ⟨w, i, -, hfetch, hdec, hexec⟩
  · simp [hrun] at hhalt
  · exact .inr ⟨_, _, _, by decide, by decide, ht, failed_raise _ _ _⟩
  · exact .inr ⟨_, _, _, by decide, by decide, ht, failed_raise _ _ _⟩
  · rcases exec_cases hexec with heffect | ⟨k, hk, rfl⟩
    · have hstill : t.halt = false := heffect.record.1.trans hrun
      exact .inl ⟨w, i, t, hfetch, hdec, ht.trans hexec.symm, ht, hstill⟩
    · obtain ⟨hfailure, -, -, hload⟩ := hk.distinct
      exact .inr ⟨k, _, _, hfailure, hload, ht, failed_raise _ _ _⟩

end Sys2Proof.Machine

/-! # The state of the block (10_state.md): who writes it, the stack, Reset, and the invariant -/

namespace Sys2Proof.Machine

/-! ## Values of bytes, words and addresses as naturals -/

theorem highByte_toNat (w : Word) : (highByte w).toNat = w.toNat / 256 := by
  have hlt := w.isLt
  simp only [highByte, BitVec.extractLsb'_toNat, Nat.shiftRight_eq_div_pow]
  omega

theorem lowByte_toNat (w : Word) : (lowByte w).toNat = w.toNat % 256 := by
  simp [lowByte, BitVec.extractLsb'_toNat]

theorem joinBytes_toNat (hi lo : Byte) : (joinBytes hi lo).toNat = hi.toNat * 256 + lo.toNat := by
  rw [joinBytes, BitVec.toNat_append, ← Nat.shiftLeft_add_eq_or_of_lt lo.isLt, Nat.shiftLeft_eq]

@[simp] theorem zextAddr_toNat (addr : Addr) : (zextAddr addr).toNat = addr.toNat := by
  simp [zextAddr]; omega

@[simp] theorem zextByte_toNat (b : Byte) : (zextByte b).toNat = b.toNat := by
  simp [zextByte]; omega

/-- The glyph address is five times the low nibble (46_memory_ops.md R173). -/
theorem glyphAddr_toNat (v : Byte) : (glyphAddr v).toNat = v.toNat % 16 * 5 := by
  have hnibble : (v &&& 0x0F).toNat = v.toNat % 16 := Nat.and_two_pow_sub_one_eq_mod v.toNat 4
  simp only [glyphAddr, hnibble, Config.fontBase, Config.glyphSize, BitVec.toNat_ofNat]
  omega

/-- A fetched word was read at an address up to 4094 (40_step_cycle.md R100). -/
theorem pc_le_of_fetch_some {s : State} {w : Word} (h : fetch s = some w) : s.pc.toNat ≤ 4094 := by
  by_contra hpc
  simp [fetch_outside (Nat.lt_of_not_le hpc)] at h

/-! ## Who writes what: the column "written by" of R20 -/

/-- What the rule of `i` may change from `s` to `t`, piece by piece: each is as before, or `i` is one of its writers. A piece
that a proof does not mention is as before. -/
structure OwnWrites (i : Instr) (s t : State) : Prop where
  regs : SameRegs (writtenRegs i) s t := by exact fun _ _ => rfl
  index : t.I = s.I ∨ (∃ addr, i = .movI addr ∧ t.I = zextAddr addr) ∨
    (∃ x, i = .addI x ∧ t.I = s.I + zextByte (getV s x)) ∨ (∃ x, i = .font x ∧ t.I = glyphAddr (getV s x)) := by
    exact .inl rfl
  pc : t.pc = s.pc + 2 ∨ ∃ addr x y kk, i = .jmp addr ∨ i = .jmpV0 addr ∨ i = .call addr ∨ i = .ret ∨ i = .skeImm x kk ∨
    i = .skneImm x kk ∨ i = .skeReg x y ∨ i = .skneReg x y := by exact .inl rfl
  sp : t.sp = s.sp ∨ ∃ addr, i = .call addr ∨ i = .ret := by exact .inl rfl
  timer : t.DT = s.DT ∨ ∃ x, i = .movToDT x := by exact .inl rfl
  display : t.Px = s.Px ∨ ∃ x y n, i = .cls ∨ i = .drw x y n := by exact .inl rfl
  memory : t.mem = s.mem ∨ ∃ x addr, i = .call addr ∨ i = .bcd x ∨ i = .str x := by exact .inl rfl
  draws : t.rng = s.rng ∨ ∃ x kk, i = .rnd x kk := by exact .inl rfl
  record : SameRecord s t := by exact ⟨rfl, rfl, rfl, rfl⟩
  schedule : t.schedule = s.schedule := by exact rfl

/-- A write to a listed register changes no register outside the list. -/
theorem SameRegs.setV {l : List Nibble} {s t : State} (h : SameRegs l s t) {x : Nibble} (hx : x ∈ l) (v : Byte) :
    SameRegs l s (setV t x v) := by
  intro r hr
  have hne : r ≠ x := fun e => hr (e ▸ hx)
  rw [getV_setV_other _ _ _ _ hne, h r hr]

/-- The advance changes no register. -/
theorem sameRegs_advance (l : List Nibble) (s : State) : SameRegs l s (advance s) := fun _ _ => rfl

/-- The result and the flag change `V[x]` and VF only (10_state.md R22). -/
theorem sameRegs_resultThenFlag (s : State) (x : Nibble) (result f : Byte) :
    SameRegs [x, vf] s (resultThenFlag (advance s) x result f) :=
  ((sameRegs_advance _ s).setV (by simp) _).setV (by simp) _

/-- So do the flag and the shift. -/
theorem sameRegs_flagThenShift (s : State) (x : Nibble) (f : Byte) (shift : Byte → Byte) :
    SameRegs [x, vf] s (flagThenShift (advance s) x f shift) :=
  ((sameRegs_advance _ s).setV (by simp) _).setV (by simp) _

/-- A register up to `x` is one that `LD Vx,[I]` writes. -/
theorem mem_writtenRegs_ld {x r : Nibble} (h : r.toNat ≤ x.toNat) : r ∈ writtenRegs (.ld x) :=
  List.mem_map.2 ⟨r.toNat, List.mem_range.2 (Nat.lt_succ_of_le h), by simp⟩

/-- A block load writes the registers that `LD Vx,[I]` names, `V[0]..V[x]`. -/
theorem sameRegs_setVUpTo (s : State) (x : Nibble) (f : Nat → Byte) :
    SameRegs (writtenRegs (.ld x)) s (setVUpTo (advance s) x f) := by
  intro r hr
  have hgt : ¬ r.toNat ≤ x.toNat := fun h => hr (mem_writtenRegs_ld h)
  rw [getV_setVUpTo, if_neg hgt, getV_advance]

/-- An instruction's rule that writes the general registers it names and nothing else but `pc`. -/
theorem OwnWrites.of_setV {i : Instr} (s : State) {x : Nibble} (hx : x ∈ writtenRegs i) (v : Byte) :
    OwnWrites i s (setV (advance s) x v) where
  regs := (sameRegs_advance _ s).setV hx v

/-- The rule of `LD Vx,[I]` (46_memory_ops.md R171). The pieces are cited, because `rfl` would compare the register files. -/
theorem OwnWrites.of_setVUpTo (s : State) (x : Nibble) (f : Nat → Byte) :
    OwnWrites (.ld x) s (setVUpTo (advance s) x f) where
  regs := sameRegs_setVUpTo s x f
  index := .inl (setVUpTo_I _ _ _)
  pc := .inl (setVUpTo_pc _ _ _)
  sp := .inl (setVUpTo_sp _ _ _)
  timer := .inl (setVUpTo_DT _ _ _)
  display := .inl (setVUpTo_Px _ _ _)
  memory := .inl (setVUpTo_mem _ _ _)
  draws := .inl (setVUpTo_rng _ _ _)
  record := ⟨setVUpTo_halt _ _ _, setVUpTo_fkind _ _ _, setVUpTo_fop _ _ _, setVUpTo_faddr _ _ _⟩
  schedule := setVUpTo_schedule _ _ _

/-- What an instruction can do: the writes of its rule, or the failure entry. -/
theorem exec_writes {i : Instr} {s t : State} (h : exec i s = .next t) :
    OwnWrites i s t ∨ ∃ k op, t = raise k op s := by
  cases i with
  | movImm x kk | addImm x kk | movReg x y | orReg x y | andReg x y | xorReg x y | rsubReg x y | movFromDT x =>
    obtain rfl := next_inj h
    exact .inl (.of_setV s (by simp [writtenRegs]) _)
  | addReg x y | subReg x y =>
    obtain rfl := next_inj h
    exact .inl { regs := sameRegs_resultThenFlag s x _ _ }
  | shr x | shl x =>
    obtain rfl := next_inj h
    exact .inl { regs := sameRegs_flagThenShift s x _ _ }
  | rnd x kk =>
    obtain rfl := next_inj h
    have hregs : SameRegs [x] s (nextDraw (advance s)) := fun _ _ => rfl
    exact .inl { regs := hregs.setV (by simp) _, draws := .inr (by simp) }
  | movI addr => obtain rfl := next_inj h; exact .inl { index := .inr (.inl ⟨addr, rfl, rfl⟩) }
  | addI x => obtain rfl := next_inj h; exact .inl { index := .inr (.inr (.inl ⟨x, rfl, rfl⟩)) }
  | font x => obtain rfl := next_inj h; exact .inl { index := .inr (.inr (.inr ⟨x, rfl, rfl⟩)) }
  | movToDT x => obtain rfl := next_inj h; exact .inl { timer := .inr ⟨x, rfl⟩ }
  | cls => obtain rfl := next_inj h; exact .inl { display := .inr (by simp) }
  | jmp addr | jmpV0 addr => obtain rfl := next_inj h; exact .inl { pc := .inr (by simp) }
  | skeImm x kk | skneImm x kk | skeReg x y | skneReg x y =>
    obtain rfl := next_inj h
    left
    split <;> exact { pc := .inr (by simp) }
  | call addr =>
    rcases attempt_cases h with ⟨-, rfl⟩ | ⟨k, -, rfl⟩
    · exact .inl { pc := .inr (by simp), sp := .inr (by simp), memory := .inr (by simp) }
    · exact .inr ⟨k, _, rfl⟩
  | ret =>
    rcases attempt_cases h with ⟨-, rfl⟩ | ⟨k, -, rfl⟩
    · exact .inl { pc := .inr (by simp), sp := .inr (by simp) }
    · exact .inr ⟨k, _, rfl⟩
  | drw x y n =>
    rcases attempt_cases h with ⟨-, rfl⟩ | ⟨k, -, rfl⟩
    · have hregs (g : Grid) : SameRegs [vf] s (setPx (advance s) g) := fun _ _ => rfl
      exact .inl { regs := (hregs _).setV (by simp) _, display := .inr (by simp) }
    · exact .inr ⟨k, _, rfl⟩
  | bcd x | str x =>
    rcases attempt_cases h with ⟨-, rfl⟩ | ⟨k, -, rfl⟩
    · exact .inl { memory := .inr (by simp) }
    · exact .inr ⟨k, _, rfl⟩
  | ld x =>
    rcases attempt_cases h with ⟨-, rfl⟩ | ⟨k, -, rfl⟩
    · exact .inl (.of_setVUpTo s x _)
    · exact .inr ⟨k, _, rfl⟩

/-- What a Step can do: nothing, the failure entry, or the writes of the rule of the instruction fetched. -/
theorem stepEvent_writes {s t : State} (h : stepEvent s = .next t) :
    t = s ∨ (∃ k op, t = raise k op s) ∨ ∃ w i, fetch s = some w ∧ decode w = some i ∧ OwnWrites i s t := by
  rcases stepEvent_cases h with ⟨-, rfl⟩ | ⟨-, -, rfl⟩ | ⟨w, -, -, -, rfl⟩ | ⟨w, i, -, hfetch, hdec, hexec⟩
  · exact .inl rfl
  · exact .inr (.inl ⟨_, _, rfl⟩)
  · exact .inr (.inl ⟨_, _, rfl⟩)
  · rcases exec_writes hexec with hown | hraise
    · exact .inr (.inr ⟨w, i, hfetch, hdec, hown⟩)
    · exact .inr (.inl hraise)

/-! ## Runs of events -/

/-- A run of a list of events keeps what each event of the list keeps. -/
theorem runEvents_preserves {P : State → Prop} {es : List Event} {s t : State}
    (keep : ∀ e ∈ es, ∀ u v, P u → applyEvent e u = .next v → P v) (hs : P s) (h : runEvents es s = .next t) : P t := by
  induction es generalizing s with
  | nil => exact next_inj h ▸ hs
  | cons e es ih =>
    obtain ⟨u, hu⟩ := applyEvent_answers_next e s
    rw [runEvents, hu] at h
    exact ih (fun e' he' => keep e' (List.mem_cons_of_mem _ he')) (keep e List.mem_cons_self s u hs hu) h

/-- A Tick changes nothing but the timer (60_exceptions.md R193). -/
theorem tick_eq_withDT (s : State) : tick s = { s with DT := (tick s).DT } := by
  unfold tick
  split <;> rfl

/-! ## The call stack (10_state.md R26) -/

/-- `CALL` with room on the stack passes its checks (41_jumps_calls.md R112). -/
theorem exec_call_of_room {s : State} (addr : Addr) (hlow : 0xFE2 ≤ s.sp.toNat) (hhigh : s.sp.toNat ≤ 0x1000) :
    exec (.call addr) s = .next (setPc (push (advance s) (advance s).pc) (zextAddr addr)) := by
  have hpush : checkPush s = none := checkPush_eq_none.2 hlow
  have hstore : checkWrite (pushAddr s) 2 = none := by
    rw [checkWrite_eq_none (by decide)]
    simp only [pushAddr, Config.fontSize, Config.memCapacity]
    omega
  simp only [exec, execCall, hpush, hstore, Option.or_none, attempt_none]

/-- `RET` with an address on the stack passes its checks (41_jumps_calls.md R113). -/
theorem exec_ret_of_pushed {s : State} (h : s.sp.toNat ≤ 0xFFE) :
    exec .ret s = .next (dropTop (setPc (advance s) (popped s))) := by
  have hpop : checkPop s = none := checkPop_eq_none.2 (by simp only [Config.stackTop]; omega)
  have hload : checkRead (popAddr s) 2 = none := checkRead_eq_none.2 (.inr (by simp only [popAddr, Config.memCapacity]; omega))
  simp only [exec, execRet, hpop, hload, Option.or_none, attempt_none]

/-- A word store changes no byte outside its two. -/
theorem readByte_writeWord_outside (m : Memory) {a a' : Nat} (w : Word) (h : a' < a ∨ a + 2 ≤ a') :
    readByte (writeWord m a w) a' = readByte m a' := by
  rw [readByte_writeWord, if_neg (by omega), if_neg (by omega)]

/-- What `CALL`'s push and jump leave alone: every byte but the two of the return address, and all that is no `pc` or `sp`. -/
theorem storeShape_call (s : State) (w v : Word) :
    StoreShape (pushAddr s) 2 s (setPc (push (advance s) w) v) where
  bytes := fun _ ha => readByte_writeWord_outside _ _ ha
  regs := fun _ _ => rfl
  index := rfl
  timer := rfl
  display := fun _ _ => rfl
  record := ⟨rfl, rfl, rfl, rfl⟩
  oracle := ⟨rfl, rfl⟩

/-! ## Reset (10_state.md R35) -/

theorem resetWith_of_fits {prog : List Byte} (h : prog.length ≤ 3584) :
    resetWith prog = { State.reset with mem := loadImage Config.programBase prog } :=
  if_pos (decide_eq_true h)

theorem resetWith_of_oversize {prog : List Byte} (h : 3584 < prog.length) :
    resetWith prog = { State.reset with halt := true, fkind := .loadFailure } := by
  have hfits : ¬ imageFits prog = true := fun hfit => Nat.not_le.2 h (of_decide_eq_true hfit)
  exact if_neg hfits

/-- In the font region an unlisted address reads as the font. -/
theorem resetByte_eq_font (a : Nat) : resetByte a = fontTable.getD a 0 := rfl

/-- Above the font region an unlisted address reads as zero. -/
theorem resetByte_above_font {a : Nat} (h : 80 ≤ a) : resetByte a = 0 :=
  List.getD_eq_default _ _ h

/-- Memory after a Reset whose image fits (70_reset_and_hazards.md R210). -/
theorem readByte_loadImage_programBase (prog : List Byte) (a : Nat) :
    readByte (loadImage Config.programBase prog) a =
      if a < 80 then fontTable.getD a 0 else if 512 ≤ a then prog.getD (a - 512) 0 else 0 := by
  rw [readByte_loadImage, show Config.programBase = 512 from rfl]
  by_cases hfont : a < 80
  · rw [if_neg (by omega), if_pos hfont, resetByte_eq_font]
  · rw [if_neg hfont, resetByte_above_font (by omega)]

/-! ## The invariant -/

theorem recordLegal_of_sameRecord {s t : State} (h : RecordLegal s) (hr : SameRecord s t) : RecordLegal t := by
  obtain ⟨hhalt, hkind, hop, haddr⟩ := hr
  rw [RecordLegal, hhalt, hkind, hop, haddr]
  exact h

/-- The invariant speaks of memory, `sp` and the record only. -/
theorem Inv.congr {s t : State} (h : Inv s) (hm : t.mem = s.mem) (hsp : t.sp = s.sp) (hr : SameRecord s t) : Inv t where
  memory := hm ▸ h.memory
  font := fun a ha => hm ▸ h.font a ha
  stack := by rw [SpLegal, hsp]; exact h.stack
  record := recordLegal_of_sameRecord h.record hr

/-- The failure entry keeps the invariant: it records a failure. -/
theorem Inv.raise {s : State} (h : Inv s) {k : FailureKind} (hk : k ≠ .noFailure) (op : Word) : Inv (raise k op s) where
  memory := h.memory
  font := h.font
  stack := h.stack
  record := ⟨⟨fun _ => hk, fun _ => rfl⟩, fun hrun => nomatch hrun⟩

/-- A store above the font keeps the font (20_memory.md R58). -/
theorem fontIntact_writeRun {s t : State} (h : FontIntact s) {base : Nat} {bs : List Byte} (hbase : Config.fontSize ≤ base)
    (hm : t.mem = writeRun s.mem base bs) : FontIntact t := by
  intro a ha
  rw [hm, readByte_writeRun_outside _ _ (.inl (by omega))]
  exact h a ha

/-- A checked push and a checked pop keep `sp` one of its 17 values (10_state.md R27). -/
theorem spLegal_of_effect {s t : State} (h : SpLegal s) (he : Effect s t) : SpLegal t := by
  obtain ⟨heven, hlow, hhigh⟩ := h
  simp only [Config.stackBase, Config.stackTop] at hlow hhigh
  simp only [SpLegal, Config.stackBase, Config.stackTop]
  rcases he.stack with hsame | ⟨hpush, hroom⟩ | ⟨hpop, hsome⟩
  · rw [hsame]; omega
  · simp only [Config.stackBase] at hroom
    have hval : t.sp.toNat = s.sp.toNat - 2 := by rw [hpush]; bv_omega
    omega
  · simp only [Config.stackTop] at hsome
    have hval : t.sp.toNat = s.sp.toNat + 2 := by rw [hpop]; bv_omega
    omega

/-- An instruction's own effect keeps the invariant. -/
theorem Inv.effect {s t : State} (h : Inv s) (he : Effect s t) : Inv t := by
  have hrecord : RecordLegal t := recordLegal_of_sameRecord h.record he.record
  have hstack : SpLegal t := spLegal_of_effect h.stack he
  rcases he.bytes with hm | ⟨base, bs, hbase, hend, hm⟩
  · exact ⟨hm ▸ h.memory, fun a ha => hm ▸ h.font a ha, hstack, hrecord⟩
  · exact ⟨hm ▸ wf_writeRun bs h.memory hend, fontIntact_writeRun h.font hbase hm, hstack, hrecord⟩

/-- A Step keeps the invariant. -/
theorem Inv.stepEvent {s t : State} (h : Inv s) (hstep : stepEvent s = .next t) : Inv t := by
  rcases stepEvent_cases hstep with ⟨-, rfl⟩ | ⟨-, -, rfl⟩ | ⟨w, -, -, -, rfl⟩ | ⟨w, i, -, -, -, hexec⟩
  · exact h
  · exact h.raise (by decide) _
  · exact h.raise (by decide) _
  · rcases exec_cases hexec with heffect | ⟨k, hk, rfl⟩
    · exact h.effect heffect
    · exact h.raise hk.distinct.1 _

theorem spLegal_reset : SpLegal State.reset := by
  unfold SpLegal
  decide

theorem recordLegal_reset : RecordLegal State.reset := by
  unfold RecordLegal
  decide

/-- The invariant holds after Reset, whatever the image. -/
theorem inv_resetWith (prog : List Byte) : Inv (resetWith prog) := by
  rcases Nat.lt_or_ge 3584 prog.length with hbig | hfits
  · rw [resetWith_of_oversize hbig]
    exact {
      memory := wf_reset
      font := fun a _ => resetByte_eq_font a
      stack := spLegal_reset
      record := ⟨by decide, fun hrun => nomatch hrun⟩ }
  · rw [resetWith_of_fits hfits]
    exact {
      memory := (wf_loadImage prog (by simp only [Config.programBase, Config.memCapacity]; omega)).1
      font := fun a (ha : a < 80) => by simp only [readByte_loadImage_programBase, if_pos ha]
      stack := spLegal_reset
      record := recordLegal_reset }

/-- Every event keeps the invariant. -/
theorem Inv.applyEvent {s t : State} {e : Event} (h : Inv s) (he : applyEvent e s = .next t) : Inv t := by
  cases e with
  | step => exact h.stepEvent he
  | tick =>
    obtain rfl := next_inj he
    rw [tick_eq_withDT]
    exact h.congr rfl rfl ⟨rfl, rfl, rfl, rfl⟩
  | reset prog =>
    obtain rfl := next_inj he
    exact (inv_resetWith prog).congr rfl rfl ⟨rfl, rfl, rfl, rfl⟩

/-! ## The obligations -/

/-- Settles O54: a step is an event on the state without its first scheduled one, and every event keeps the invariant. -/
theorem invariantKeptByEveryStep : Obligations.InvariantKeptByEveryStep := by
  intro s t hinv hstep
  cases hs : s.schedule with
  | nil => exact hinv.stepEvent (step_of_schedule_nil hs ▸ hstep)
  | cons e rest =>
    have hinv' : Inv { s with schedule := rest } := hinv.congr rfl rfl ⟨rfl, rfl, rfl, rfl⟩
    exact hinv'.applyEvent (step_of_schedule_cons hs ▸ hstep)

/-- Settles O12: on a halted block a Step does nothing and a Tick changes the timer only. -/
theorem failureLastsUntilReset : Obligations.FailureLastsUntilReset := by
  intro es s t hhalt hnoreset hrun
  refine runEvents_preserves (P := fun u => u = { s with DT := u.DT }) ?_ rfl hrun
  intro e he u v hu hv
  cases e with
  | step =>
    have huhalt : u.halt = true := by rw [hu]; exact hhalt
    obtain rfl := next_inj ((stepEvent_of_halt huhalt).symm.trans hv)
    exact hu
  | tick =>
    obtain rfl := next_inj hv
    rw [tick_eq_withDT, hu]
  | reset prog => exact absurd he (hnoreset prog)

/-- Settles O19: the checks of `CALL` pass, and its push stores the two bytes of the return address. -/
theorem callPushesReturnAddress : Obligations.CallPushesReturnAddress := by
  intro addr s hlow hhigh
  refine ⟨_, exec_call_of_room addr hlow hhigh, zextAddr_toNat addr, ?_, ?_, ?_, storeShape_call s _ _⟩
  · show (s.sp - 2).toNat = s.sp.toNat - 2
    bv_omega
  · show (readByte (writeWord s.mem (pushAddr s) (s.pc + 2)) (pushAddr s)).toNat = _
    simp [readByte_writeWord, highByte_toNat]
  · show (readByte (writeWord s.mem (pushAddr s) (s.pc + 2)) (pushAddr s + 1)).toNat = _
    simp [readByte_writeWord, lowByte_toNat]

/-- Settles O25: only the rules of `MOV I`, `ADD I` and `FONT` write `I`, each with its own value. -/
theorem indexChangesInThreeWays : Obligations.IndexChangesInThreeWays := by
  intro s t hstep hne
  rcases stepEvent_writes hstep with rfl | ⟨k, op, rfl⟩ | ⟨w, i, hfetch, hdec, hown⟩
  · exact absurd rfl hne
  · exact absurd rfl hne
  refine ⟨w, i, hfetch, hdec, ?_⟩
  rcases hown.index.resolve_left hne with ⟨addr, hi, hI⟩ | ⟨x, hi, hI⟩ | ⟨x, hi, hI⟩
  · exact .inl ⟨addr, hi, by rw [hI, zextAddr_toNat]⟩
  · exact .inr (.inl ⟨x, hi, by rw [hI, BitVec.toNat_add, zextByte_toNat]⟩)
  · exact .inr (.inr ⟨x, (getV s x).toNat % 16, hi, Nat.mod_lt _ (by decide), by rw [hI, glyphAddr_toNat]⟩)

/-- Settles O50: a fitting image replaces the memory of the reset state, and the event carries over the model's own fields. -/
theorem resetLoadsImage : Obligations.ResetLoadsImage := by
  intro prog hfits
  have hreg : ∀ r, getV State.reset r = 0 := by decide
  rw [resetWith_of_fits hfits]
  refine ⟨fun a _ => readByte_loadImage_programBase prog a, rfl, rfl, rfl, rfl, hreg, getPx_clearGrid, rfl, fun s => ?_⟩
  rw [applyEvent, resetEvent, resetWith_of_fits hfits]

/-- Settles O56: outside the registers its instruction writes, a Step leaves every register alone. -/
theorem registersChangeOnlyAsNamed : Obligations.RegistersChangeOnlyAsNamed := by
  intro s t r hstep hne
  rcases stepEvent_writes hstep with rfl | ⟨k, op, rfl⟩ | ⟨w, i, hfetch, hdec, hown⟩
  · exact absurd rfl hne
  · exact absurd rfl hne
  · exact ⟨w, i, hfetch, hdec, by_contra fun hr => hne (hown.regs r hr)⟩

/-- Settles O57: each piece of state that a completed Step changes has the fetched instruction among its writers, and the
failure entry changes the record only. -/
theorem stateHasItsWriters : Obligations.StateHasItsWriters := by
  intro s t hstep
  rcases stepEvent_writes hstep with rfl | ⟨k, op, rfl⟩ | ⟨w, i, hfetch, hdec, hown⟩
  · simp [SameRecord]
  · simpa using fun _ => ⟨k, op, failed_raise k op s⟩
  · refine ⟨fun h => ⟨w, i, hfetch, hdec, ?_⟩, fun h => ⟨w, i, hfetch, hdec, hown.sp.resolve_left h⟩,
      fun h => ⟨w, i, hfetch, hdec, hown.timer.resolve_left h⟩, fun h => ⟨w, i, hfetch, hdec, hown.display.resolve_left h⟩,
      fun h => ⟨w, i, hfetch, hdec, hown.memory.resolve_left h⟩, fun h => ⟨w, i, hfetch, hdec, hown.draws.resolve_left h⟩,
      fun h => absurd hown.record h, hown.schedule⟩
    rcases hown.index.resolve_left h with ⟨addr, hi, -⟩ | ⟨x, hi, -⟩ | ⟨x, hi, -⟩ <;> simp [hi]

/-- Settles O58: a completed Step is the rule of its instruction, which leaves `pc` to the advance unless it is a jump, a call,
a return or a skip; the fetch keeps the advance from wrapping. -/
theorem othersFallThrough : Obligations.OthersFallThrough := by
  intro s t w i hrun hfetch hdec hstep hstill hother
  rw [stepEvent_of_fetch_some hrun hfetch, executeWord_of_decode_some s hdec] at hstep
  have hpc : t.pc = s.pc + 2 := by
    rcases exec_writes hstep with hown | ⟨k, op, rfl⟩
    · refine hown.pc.resolve_right ?_
      rintro ⟨addr, x, y, kk, hi⟩
      have hnot := hother addr x y kk
      tauto
    · simp at hstill
  have hfits := pc_le_of_fetch_some hfetch
  exact ⟨hpc, by rw [hpc]; bv_omega⟩

/-- Settles O20: the checks of `RET` pass, and it pops the word at `sp`. -/
theorem returnPopsAddress : Obligations.ReturnPopsAddress := by
  intro s hsp
  refine ⟨_, exec_ret_of_pushed hsp, joinBytes_toNat _ _, ?_,
    ⟨fun _ _ => rfl, rfl, fun _ _ => rfl, fun _ => rfl, ⟨rfl, rfl, rfl, rfl⟩, ⟨rfl, rfl⟩⟩, rfl, rfl⟩
  show (s.sp + 2).toNat = s.sp.toNat + 2
  bv_omega

/-- Settles O48: the glyph address is five times the low nibble, and the font is read where it lies. -/
theorem fontPointsAtGlyph : Obligations.FontPointsAtGlyph := by
  intro x s
  refine ⟨_, rfl, glyphAddr_toNat _, rfl, rfl,
    ⟨fun _ _ => rfl, rfl, fun _ _ => rfl, fun _ => rfl, ⟨rfl, rfl, rfl, rfl⟩, ⟨rfl, rfl⟩⟩, fun hfont k hk => ?_⟩
  show readByte s.mem ((glyphAddr (getV s x)).toNat + k) = _
  rw [glyphAddr_toNat]
  exact hfont _ (by simp only [Config.fontSize]; omega)

/-- Settles O52: the word at 0x200 of empty memory is 0, which does not decode. -/
theorem emptyImageFailsAtFirstStep : Obligations.EmptyImageFailsAtFirstStep := by
  have hfetch : fetch State.reset = some 0 := by decide
  have hdec : decode 0 = none := by decide
  refine ⟨(resetWith_of_fits (prog := []) (by decide)).symm, raise .decodeFailure 0 State.reset, ?_, failed_raise _ _ _, rfl⟩
  rw [step_of_schedule_nil rfl, stepEvent_of_fetch_some rfl hfetch, executeWord_of_decode_none _ hdec]

/-- Settles O53: the reset state is Reset of the empty image. -/
theorem invariantHoldsAtReset : Obligations.InvariantHoldsAtReset :=
  inv_resetWith []

end Sys2Proof.Machine

/-! # Memory (20_memory.md): bounds, the read-only font, and byte order -/

namespace Sys2Proof.Machine

/-! ## Checks that fail -/

/-- A store that would leave memory fails by the bounds check, which comes first (R57, R60). -/
theorem checkWrite_of_outside {addr len : Nat} (hlen : len ≠ 0) (hend : Config.memCapacity < addr + len) :
    checkWrite addr len = some .dataBounds := by
  rw [checkWrite, checkRead_eq_some.2 ⟨rfl, hlen, hend⟩, Option.some_or]

/-- A store inside memory that begins in the font fails by the font check (R58). -/
theorem checkWrite_of_font {addr len : Nat} (hend : addr + len ≤ Config.memCapacity) (hfont : addr < Config.fontSize) :
    checkWrite addr len = some .fontWrite := by
  have hbase : addr ≤ Config.fontBase + Config.fontSize - 1 := by
    simp only [Config.fontBase, Config.fontSize] at hfont ⊢; omega
  rw [checkWrite, checkRead_eq_none.2 (.inr hend), Option.none_or, if_pos hbase]

/-- An instruction whose check fails answers the failure entry, whatever its rule would have left. -/
theorem attempt_failed {check : Option FailureKind} {k : FailureKind} (h : check = some k) (op : Word) (s t : State) :
    ∃ u, attempt check op s t = .next u ∧ Failed k op s u :=
  ⟨raise k op s, by rw [h, attempt_some], failed_raise k op s⟩

/-! ## The font under a Step -/

/-- An instruction's own effect stores above the font only (R58). -/
theorem Effect.font_bytes {s t : State} (h : Effect s t) {a : Nat} (ha : a < Config.fontSize) :
    readByte t.mem a = readByte s.mem a := by
  rcases h.bytes with hm | ⟨base, bs, hbase, -, hm⟩
  · rw [hm]
  · rw [hm, readByte_writeRun_outside _ _ (.inl (by omega))]

/-! ## A word placed for the fetch (R65) -/

/-- Every word is the low 16 bits of its own value. -/
theorem withFetchWord_word (s : State) (w : Word) : s.withFetchWord 16 w.toNat = placeWord (readyToStep s) w := by
  rw [State.withFetchWord, Nat.mod_eq_of_lt w.isLt, BitVec.ofNat_toNat, BitVec.setWidth_eq]

/-- The fetch reads a placed word back. -/
theorem fetch_placeWord {s : State} (w : Word) (h : s.pc.toNat ≤ 4094) : fetch (placeWord s w) = some w :=
  (fetch_inside (s := placeWord s w) h).trans (congrArg some (readWord_writeWord_same _ _ w))

/-! ## The obligations -/

/-- Settles O45: the bounds check catches a run past 4095, and a run that begins in the font ends far below it. -/
theorem storesFailOutsideWritableMemory : Obligations.StoresFailOutsideWritableMemory := by
  intro x s
  have hx : regCount x ≤ 16 := x.isLt
  have hcap : Config.memCapacity = 4096 := rfl
  have hsize : Config.fontSize = 80 := rfl
  refine ⟨fun hout => ?_, fun hfont => ?_, fun hout => ?_, fun hfont => ?_⟩
  · exact attempt_failed (checkWrite_of_outside (by decide) (by omega)) _ _ _
  · exact attempt_failed (checkWrite_of_font (by omega) (by omega)) _ _ _
  · exact attempt_failed (checkWrite_of_outside (Nat.succ_ne_zero _) (Nat.succ_lt_succ hout)) _ _ _
  · exact attempt_failed (checkWrite_of_font (by omega) (by omega)) _ _ _

/-- Settles O55: of the cases of a Step only an instruction's own effect changes memory, and it stores above the font. -/
theorem fontIsReadOnly : Obligations.FontIsReadOnly := by
  intro s t hstep a ha
  rcases stepEvent_cases hstep with ⟨-, rfl⟩ | ⟨-, -, rfl⟩ | ⟨w, -, -, -, rfl⟩ | ⟨w, i, -, -, -, hexec⟩
  · rfl
  · rfl
  · rfl
  · rcases exec_cases hexec with heffect | ⟨k, -, rfl⟩
    · exact heffect.font_bytes ha
    · rfl

/-- Settles O9: the fetch joins the two bytes at `pc`, or fails past 4094. -/
theorem fetchIsBigEndianOrFails : Obligations.FetchIsBigEndianOrFails := by
  intro s hsched hrun
  rw [step_of_schedule_nil hsched]
  refine ⟨fun hin => ⟨readWord s.mem s.pc.toNat, joinBytes_toNat _ _, ?_⟩, fun hout => ⟨_, ?_, failed_raise _ _ s⟩⟩
  · exact stepEvent_of_fetch_some hrun (fetch_inside hin)
  · exact stepEvent_of_fetch_none hrun (fetch_outside hout)

/-- Settles O16: the placed word is fetched, in a state that is running and has no event scheduled. -/
theorem placedWordIsExecuted : Obligations.PlacedWordIsExecuted := by
  intro s w hpc
  rw [withFetchWord_word]
  have hfetch : fetch (placeWord (readyToStep s) w) = some w := fetch_placeWord w hpc
  exact ⟨hfetch, (step_of_schedule_nil rfl).trans (stepEvent_of_fetch_some rfl hfetch)⟩

/-- Settles O46: the read check of `LD` and of a `DRW` with a row to draw catches a run past 4095. -/
theorem readsFailOutsideMemory : Obligations.ReadsFailOutsideMemory := by
  intro x y n s
  refine ⟨fun hout => ?_, fun hn hout => ?_⟩
  · exact attempt_failed (checkRead_eq_some.2 ⟨rfl, Nat.succ_ne_zero _, Nat.succ_lt_succ hout⟩) _ _ _
  · have hrows : n.toNat ≠ 0 := fun h => hn (BitVec.eq_of_toNat_eq h)
    exact attempt_failed (checkRead_eq_some.2 ⟨rfl, hrows, hout⟩) _ _ _

end Sys2Proof.Machine

/-! # Encoding (30_encoding.md): decoder, encoder and opcode map agree -/

namespace Sys2Proof

/-! ## A word is its fields (R81, R82) -/

/-- Format NNN of a word's own fields is the word. -/
@[simp] theorem encNNN_fields (w : Word) : encNNN (opField w) (addrField w) = w := by
  apply word_ext
  intro i hi
  simp only [encNNN, opField, addrField, BitVec.getLsbD_append, BitVec.getLsbD_extractLsb']
  by_cases h : i < 12
  · simp [h]
  · simp [h, show i - 12 < 4 by omega, show 12 + (i - 12) = i by omega]

/-- Format XKK of a word's own fields is the word. -/
@[simp] theorem encXKK_fields (w : Word) : encXKK (opField w) (xField w) (kkField w) = w := by
  apply word_ext
  intro i hi
  simp only [getLsbD_encXKK, opField, xField, kkField, BitVec.getLsbD_extractLsb']
  split
  · simp [*]
  · split
    · simp [show i - 8 < 4 by omega, show 8 + (i - 8) = i by omega]
    · simp [show i - 12 < 4 by omega, show 12 + (i - 12) = i by omega]

/-- Format XYN of a word's own fields is the word. -/
@[simp] theorem encXYN_fields (w : Word) : encXYN (opField w) (xField w) (yField w) (nField w) = w := by
  apply word_ext
  intro i hi
  simp only [getLsbD_encXYN, opField, xField, yField, nField, BitVec.getLsbD_extractLsb']
  split
  · simp [*]
  · split
    · simp [show i - 4 < 4 by omega, show 4 + (i - 4) = i by omega]
    · split
      · simp [show i - 8 < 4 by omega, show 8 + (i - 8) = i by omega]
      · simp [show i - 12 < 4 by omega, show 12 + (i - 12) = i by omega]

/-- The mask that clears nibble 2. -/
theorem mask_FF0F : ∀ i, i < 16 → (0xFF0F : Word).getLsbD i = decide (i < 4 ∨ 8 ≤ i) := by decide

/-- Clearing nibble 2 of a word in format XYN clears `y`. -/
theorem encXYN_and_FF0F (op x y n : Nibble) : encXYN op x y n &&& 0xFF0F = encXYN op x 0 n := by
  apply word_ext
  intro i hi
  rw [BitVec.getLsbD_and, mask_FF0F i hi]
  simp only [getLsbD_encXYN]
  by_cases h4 : i < 4
  · simp [h4]
  · by_cases h8 : i < 8
    · simp [h4, h8]
    · simp [h4, h8, Nat.le_of_not_lt h8]

/-! ## Decoding what was encoded -/

/-- The decoder undoes the encoder: it meets the encoder's constants in the fields it tells words apart by, and the operands
in the others. -/
theorem decode_encode (i : Instr) : decode (encode i) = some i := by
  cases i with
  | cls | ret => rfl
  | _ => simp [encode, decode, decodeAlu, decodeMisc]

theorem decodeBytes_of_decode {hi lo : Byte} {i : Instr} (rest : List Byte) (h : decode (joinBytes hi lo) = some i) :
    decodeBytes (hi :: lo :: rest) = .instr i rest := by
  rw [decodeBytes, h]

/-! ## Encoding what was decoded -/

/-- The bits of a word that its instruction fixes: all of them, but for nibble 2 of a shift (R87; D3). -/
def encodedBits : Instr → Word
  | .shr _ | .shl _ => 0xFF0F
  | _ => 0xFFFF

/-- The mask that keeps a whole word. -/
theorem and_FFFF (w : Word) : w &&& 0xFFFF = w := BitVec.and_allOnes

theorem encNNN_of_op {w : Word} {op : Nibble} (hop : (opField w).toNat = op.toNat) :
    encNNN op (addrField w) = w &&& 0xFFFF := by
  rw [← BitVec.eq_of_toNat_eq hop, encNNN_fields, and_FFFF]

theorem encXKK_of_op {w : Word} {op : Nibble} (hop : (opField w).toNat = op.toNat) :
    encXKK op (xField w) (kkField w) = w &&& 0xFFFF := by
  rw [← BitVec.eq_of_toNat_eq hop, encXKK_fields, and_FFFF]

theorem encXKK_of_op_kk {w : Word} {op : Nibble} {kk : Byte} (hop : (opField w).toNat = op.toNat)
    (hkk : (kkField w).toNat = kk.toNat) : encXKK op (xField w) kk = w &&& 0xFFFF := by
  rw [← encXKK_of_op hop, BitVec.eq_of_toNat_eq hkk]

theorem encXYN_of_op_n {w : Word} {op n : Nibble} (hop : (opField w).toNat = op.toNat)
    (hn : (nField w).toNat = n.toNat) : encXYN op (xField w) (yField w) n = w &&& 0xFFFF := by
  rw [← BitVec.eq_of_toNat_eq hop, ← BitVec.eq_of_toNat_eq hn, encXYN_fields, and_FFFF]

theorem encXYN_zero_of_op_n {w : Word} {op n : Nibble} (hop : (opField w).toNat = op.toNat)
    (hn : (nField w).toNat = n.toNat) : encXYN op (xField w) 0 n = w &&& 0xFF0F := by
  rw [← encXYN_and_FF0F op (xField w) (yField w) n, encXYN_of_op_n hop hn, and_FFFF]

/-- Major opcode 8: `n` is known in every branch, and the shifts alone do not name `y` (R87). -/
theorem encode_of_decodeAlu {w : Word} {i : Instr} (hop : (opField w).toNat = 8) (h : decodeAlu w = some i) :
    encode i = w &&& encodedBits i := by
  unfold decodeAlu at h
  split at h
  case h_7 hn | h_9 hn => cases h; exact encXYN_zero_of_op_n hop hn
  case h_10 => cases h
  all_goals next hn => cases h; exact encXYN_of_op_n hop hn

/-- Major opcode 0xF: `kk` is known in every branch. -/
theorem encode_of_decodeMisc {w : Word} {i : Instr} (hop : (opField w).toNat = 0xF) (h : decodeMisc w = some i) :
    encode i = w &&& encodedBits i := by
  unfold decodeMisc at h
  split at h
  case h_8 => cases h
  all_goals next hkk => cases h; exact encXKK_of_op_kk hop hkk

/-- The encoder undoes the decoder, up to the bits that are ignored: branch by branch of the decoder, by the format of its
rows. -/
theorem encode_of_decode {w : Word} {i : Instr} (h : decode w = some i) : encode i = w &&& encodedBits i := by
  unfold decode at h
  split at h
  case h_1 =>
    split_ifs at h with hcls hret
    · cases h; subst hcls; rfl
    · cases h; subst hret; rfl
  case h_2 hop | h_3 hop | h_11 hop | h_12 hop => cases h; exact encNNN_of_op hop
  case h_4 hop | h_5 hop | h_7 hop | h_8 hop | h_13 hop => cases h; exact encXKK_of_op hop
  case h_6 hop | h_10 hop =>
    split_ifs at h with hn
    cases h
    exact encXYN_of_op_n hop (congrArg BitVec.toNat hn)
  case h_9 hop => exact encode_of_decodeAlu hop h
  case h_14 hop => cases h; exact encXYN_of_op_n hop rfl
  case h_15 hop => exact encode_of_decodeMisc hop h
  case h_16 => cases h

theorem encodedBits_of_not_shift {i : Instr} (h : ∀ x, i ≠ .shr x ∧ i ≠ .shl x) : encodedBits i = 0xFFFF := by
  cases i with
  | shr x => exact absurd rfl (h x).1
  | shl x => exact absurd rfl (h x).2
  | _ => rfl

theorem encodedBits_of_shift {i : Instr} {x : Nibble} (h : i = .shr x ∨ i = .shl x) : encodedBits i = 0xFF0F := by
  rcases h with rfl | rfl <;> rfl

/-! ## The decoder and the opcode map (R84, R85, R88) -/

open Laws

/-- Every instruction encodes into its own row of the map: the family EncodesInRow as one statement. -/
theorem encodesInRow : ∀ i, EncodesInRow.Statement i
  | .cls => EncodesInRow.cls
  | .ret => EncodesInRow.ret
  | .jmp addr => EncodesInRow.jmp addr
  | .call addr => EncodesInRow.call addr
  | .skeImm x kk => EncodesInRow.skeImm x kk
  | .skneImm x kk => EncodesInRow.skneImm x kk
  | .skeReg x y => EncodesInRow.skeReg x y
  | .movImm x kk => EncodesInRow.movImm x kk
  | .addImm x kk => EncodesInRow.addImm x kk
  | .movReg x y => EncodesInRow.movReg x y
  | .orReg x y => EncodesInRow.orReg x y
  | .andReg x y => EncodesInRow.andReg x y
  | .xorReg x y => EncodesInRow.xorReg x y
  | .addReg x y => EncodesInRow.addReg x y
  | .subReg x y => EncodesInRow.subReg x y
  | .shr x => EncodesInRow.shr x
  | .rsubReg x y => EncodesInRow.rsubReg x y
  | .shl x => EncodesInRow.shl x
  | .skneReg x y => EncodesInRow.skneReg x y
  | .movI addr => EncodesInRow.movI addr
  | .jmpV0 addr => EncodesInRow.jmpV0 addr
  | .rnd x kk => EncodesInRow.rnd x kk
  | .drw x y n => EncodesInRow.drw x y n
  | .movFromDT x => EncodesInRow.movFromDT x
  | .movToDT x => EncodesInRow.movToDT x
  | .addI x => EncodesInRow.addI x
  | .font x => EncodesInRow.font x
  | .bcd x => EncodesInRow.bcd x
  | .str x => EncodesInRow.str x
  | .ld x => EncodesInRow.ld x

/-- An instruction's row looks at no ignored bit. -/
theorem encodedBits_and_mask (i : Instr) : encodedBits i &&& (rowOf i).mask = (rowOf i).mask := by
  cases i with
  | shr x | shl x => exact (by decide : (0xFF0F : Word) &&& 0xF00F = 0xF00F)
  | _ => exact BitVec.allOnes_and

/-- A word that decodes lies in the row of its instruction. -/
theorem rowOf_holds_of_decode {w : Word} {i : Instr} (h : decode w = some i) : (rowOf i).holds w = true := by
  obtain ⟨-, hrow⟩ := encodesInRow i
  rwa [OpcodeRow.holds, encode_of_decode h, BitVec.and_assoc, encodedBits_and_mask] at hrow

theorem OpcodeRow.holds_iff {r : OpcodeRow} {w : Word} : r.holds w = true ↔ w &&& r.mask = r.pattern :=
  beq_iff_eq

theorem opField_of_F000 {w p : Word} (h : w &&& 0xF000 = p) : opField w = opField p :=
  opField_of_mask h (by decide)

theorem fields_of_F00F {w p : Word} (h : w &&& 0xF00F = p) : opField w = opField p ∧ nField w = nField p :=
  ⟨opField_of_mask h (by decide), nField_of_mask h (by decide)⟩

theorem fields_of_F0FF {w p : Word} (h : w &&& 0xF0FF = p) : opField w = opField p ∧ kkField w = kkField p :=
  ⟨opField_of_mask h (by decide), kkField_of_mask h (by decide)⟩

theorem decode_of_op_8 {w : Word} (hop : opField w = 0x8) : decode w = decodeAlu w := by
  rw [decode, hop]; rfl

theorem decode_of_op_F {w : Word} (hop : opField w = 0xF) : decode w = decodeMisc w := by
  rw [decode, hop]; rfl

/-- Rows 1 to 9: `CLS` and `RET` are single words, `SKE Vx,Vy` fixes the major opcode and `n`, the others the major opcode. -/
theorem map_rowOf_decode_of_opcodeRowsLow {r : OpcodeRow} {w : Word} (hr : r ∈ opcodeRowsLow) (h : w &&& r.mask = r.pattern) :
    (decode w).map rowOf = some r := by
  simp only [opcodeRowsLow, List.mem_cons, List.not_mem_nil, or_false] at hr
  rcases hr with rfl | rfl | rfl | rfl | rfl | rfl | rfl | rfl | rfl
  on_goal 1 => obtain rfl : w = 0x00E0 := (and_FFFF w).symm.trans h; rfl
  on_goal 1 => obtain rfl : w = 0x00EE := (and_FFFF w).symm.trans h; rfl
  on_goal 5 => obtain ⟨hop, hn⟩ := fields_of_F00F h; rw [decode, hop, hn]; rfl
  all_goals rw [decode, opField_of_F000 h]; rfl

/-- Rows 10 to 18, major opcode 8: a row is chosen by `n`. -/
theorem map_rowOf_decode_of_opcodeRowsAlu {r : OpcodeRow} {w : Word} (hr : r ∈ opcodeRowsAlu) (h : w &&& r.mask = r.pattern) :
    (decode w).map rowOf = some r := by
  simp only [opcodeRowsAlu, List.mem_cons, List.not_mem_nil, or_false] at hr
  rcases hr with rfl | rfl | rfl | rfl | rfl | rfl | rfl | rfl | rfl
  all_goals
    obtain ⟨hop, hn⟩ := fields_of_F00F h
    rw [decode_of_op_8 hop, decodeAlu, hn]
    rfl

/-- Rows 19 to 30: `SKNE Vx,Vy` fixes the major opcode and `n`, the next four the major opcode, and the last seven, major
opcode 0xF, are chosen by `kk`. -/
theorem map_rowOf_decode_of_opcodeRowsHigh {r : OpcodeRow} {w : Word} (hr : r ∈ opcodeRowsHigh) (h : w &&& r.mask = r.pattern) :
    (decode w).map rowOf = some r := by
  simp only [opcodeRowsHigh, List.mem_cons, List.not_mem_nil, or_false] at hr
  rcases hr with rfl | rfl | rfl | rfl | rfl | hmisc
  on_goal 1 => obtain ⟨hop, hn⟩ := fields_of_F00F h; rw [decode, hop, hn]; rfl
  on_goal 5 =>
    rcases hmisc with rfl | rfl | rfl | rfl | rfl | rfl | rfl
    all_goals
      obtain ⟨hop, hkk⟩ := fields_of_F0FF h
      rw [decode_of_op_F hop, decodeMisc, hkk]
      rfl
  all_goals rw [decode, opField_of_F000 h]; rfl

/-- A word that lies in a row decodes to an instruction of that row. -/
theorem map_rowOf_decode_of_holds {r : OpcodeRow} {w : Word} (hr : r ∈ opcodeRows) (h : r.holds w = true) :
    (decode w).map rowOf = some r := by
  have hmask : w &&& r.mask = r.pattern := OpcodeRow.holds_iff.1 h
  simp only [opcodeRows, List.mem_append] at hr
  rcases hr with (hlow | halu) | hhigh
  · exact map_rowOf_decode_of_opcodeRowsLow hlow hmask
  · exact map_rowOf_decode_of_opcodeRowsAlu halu hmask
  · exact map_rowOf_decode_of_opcodeRowsHigh hhigh hmask

/-- An instruction word is a word that decodes: the row that holds it is its instruction's (R85). -/
theorem wordWellFormed_iff {w : Word} : wordWellFormed w = true ↔ ∃ i, decode w = some i := by
  rw [wordWellFormed, List.any_eq_true]
  constructor
  · rintro ⟨r, hr, h⟩
    obtain ⟨i, hi, -⟩ := Option.map_eq_some_iff.1 (map_rowOf_decode_of_holds hr h)
    exact ⟨i, hi⟩
  · rintro ⟨i, hi⟩
    exact ⟨rowOf i, (encodesInRow i).1, rowOf_holds_of_decode hi⟩

end Sys2Proof

namespace Sys2Proof.Machine

/-! ## The obligations -/

/-- Settles O1: the two bytes join to the encoding, and the decoder undoes the encoder. -/
theorem decodeOfEncodeIsInstruction : Obligations.DecodeOfEncodeIsInstruction := by
  intro i rest
  have hdec : decode (joinBytes (highByte (encode i)) (lowByte (encode i))) = some i := by
    rw [joinBytes_bytes, decode_encode]
  exact decodeBytes_of_decode rest hdec

/-- Settles O2: the encoding is the word's bits that the instruction fixes, and only a shift leaves some unfixed. -/
theorem decodedWordReencodes : Obligations.DecodedWordReencodes := by
  intro w i h
  refine ⟨fun hshift => ?_, fun x hshift => ?_⟩
  · rw [encode_of_decode h, encodedBits_of_not_shift hshift, and_FFFF]
  · rw [encode_of_decode h, encodedBits_of_shift hshift]

/-- Settles O3: a word decodes exactly when its instruction's row, which is one of the map's, holds it. -/
theorem decodeAnswersExactlyTheTable : Obligations.DecodeAnswersExactlyTheTable := by
  intro w
  rw [Bool.eq_iff_iff, Option.isSome_iff_exists, wordWellFormed_iff]

/-- Settles O4: both rows are the row of the instruction the word decodes to. -/
theorem opcodeRowsAreDisjoint : Obligations.OpcodeRowsAreDisjoint := by
  intro w r r' hr hr' h h'
  exact Option.some.inj ((map_rowOf_decode_of_holds hr h).symm.trans (map_rowOf_decode_of_holds hr' h'))

/-- Settles O10: a word of no row does not decode, so the Step is the failure entry with the fetched word. -/
theorem undecodableWordHalts : Obligations.UndecodableWordHalts := by
  intro s hsched hrun hpc hbad
  have hdec : decode (readWord s.mem s.pc.toNat) = none := by
    rw [← Option.isNone_iff_eq_none, ← Option.not_isSome, decodeAnswersExactlyTheTable, hbad]; rfl
  refine ⟨raise .decodeFailure (readWord s.mem s.pc.toNat) s, ?_, failed_raise _ _ s⟩
  calc step s = stepEvent s := step_of_schedule_nil hsched
    _ = executeWord (readWord s.mem s.pc.toNat) s := stepEvent_of_fetch_some hrun (fetch_inside hpc)
    _ = .next (raise .decodeFailure (readWord s.mem s.pc.toNat) s) := executeWord_of_decode_none s hdec

/-- Settles O5: the first seven words are the encodings of their instructions, and the decoder has no branch for the others. -/
theorem wordsOfTheMapDecode : Obligations.WordsOfTheMapDecode :=
  ⟨decode_encode .cls, decode_encode (.call 0x345), decode_encode (.movImm 0xC 0x5D), decode_encode (.subReg 0xB 0xC),
    decode_encode (.skneReg 1 2), decode_encode (.drw 1 2 5), decode_encode (.bcd 5), rfl, rfl, rfl, rfl⟩

/-- Settles O6: the mask keeps the major opcode and `n`, which are all the decoder looks at for a shift. -/
theorem shiftsIgnoreNibbleTwo : Obligations.ShiftsIgnoreNibbleTwo := by
  intro w
  refine ⟨fun h => ?_, fun h => ?_⟩
  all_goals
    obtain ⟨hop, hn⟩ := fields_of_F00F h
    rw [decode_of_op_8 hop, decodeAlu, hn]
    rfl

end Sys2Proof.Machine

/-! # The Step (40_step_cycle.md): what a Step runs, what a failing Step keeps, and the halted block -/

namespace Sys2Proof.Machine

/-! ## A Step at a word that decodes, and the shifts' part in failures -/

/-- A Step of a running block whose word at `pc` decodes is its instruction and nothing else (40_step_cycle.md R105). -/
theorem stepEvent_of_decode_some {s : State} {i : Instr} (hrun : s.halt = false) (hpc : s.pc.toNat ≤ 4094)
    (hdec : decode (readWord s.mem s.pc.toNat) = some i) : stepEvent s = exec i s := by
  rw [stepEvent_of_fetch_some hrun (fetch_inside hpc), executeWord_of_decode_some s hdec]

/-- A shift has no checks, so it never halts the block (43_alu.md R138, R139). -/
theorem halt_of_exec_shift {i : Instr} {x : Nibble} {s t : State} (hshift : i = .shr x ∨ i = .shl x)
    (h : exec i s = .next t) : t.halt = s.halt := by
  rcases hshift with rfl | rfl
  · obtain rfl := next_inj h; rfl
  · obtain rfl := next_inj h; rfl

/-- An instruction that halts a running block is no shift, so the word it was decoded from is its encoding: the `FOP` it
records is the word fetched (60_exceptions.md R186). -/
theorem encode_of_exec_halts {w : Word} {i : Instr} {s t : State} (hrun : s.halt = false) (hdec : decode w = some i)
    (h : exec i s = .next t) (hhalt : t.halt = true) : encode i = w := by
  have hstill (x : Nibble) : ¬ (i = .shr x ∨ i = .shl x) := by
    intro hshift
    simp [halt_of_exec_shift hshift h, hrun] at hhalt
  exact (decodedWordReencodes w i hdec).1 fun x => not_or.1 (hstill x)

/-! ## The obligations -/

/-- Settles O14: of the cases of `stepEvent_cases` the fetch and the decoder fail with the record stated, and an instruction
halts the block only by the failure entry under its own encoding, which is the word fetched. -/
theorem failingStepKeepsState : Obligations.FailingStepKeepsState := by
  intro s t hrun hstep hhalt
  rcases stepEvent_cases hstep with ⟨hhalted, -⟩ | ⟨-, hfetch, rfl⟩ | ⟨w, -, hfetch, -, rfl⟩ | ⟨w, i, -, hfetch, hdec, hexec⟩
  · simp [hrun] at hhalted
  · exact ⟨_, _, failed_raise _ _ s, .inl ⟨rfl, hfetch, rfl⟩⟩
  · exact ⟨_, _, failed_raise _ _ s, .inr ⟨by decide, hfetch⟩⟩
  · have hword : encode i = w := encode_of_exec_halts hrun hdec hexec hhalt
    rcases exec_cases hexec with heffect | ⟨k, hk, rfl⟩
    · have hstill : t.halt = false := heffect.record.1.trans hrun
      simp [hstill] at hhalt
    · obtain ⟨-, hfetchBounds, -, -⟩ := hk.distinct
      exact ⟨k, _, failed_raise _ _ s, .inr ⟨hfetchBounds, hword ▸ hfetch⟩⟩

/-- Settles O7: the step is a Step of the state, or of the state with the scheduled Step taken off, whose word is the same. -/
theorem stepRunsDecodedInstruction : Obligations.StepRunsDecodedInstruction := by
  intro s i hrun hpc hdec
  refine ⟨fun hsched => ?_, fun rest hsched => ?_⟩
  · rw [step_of_schedule_nil hsched, stepEvent_of_decode_some hrun hpc hdec]
  · calc step s = stepEvent { s with schedule := rest } := step_of_schedule_cons hsched
      _ = exec i { s with schedule := rest } := stepEvent_of_decode_some hrun hpc hdec

/-- Settles O11: a halted block ignores a Step, and with an empty schedule the step is one. -/
theorem haltedBlockIgnoresStep : Obligations.HaltedBlockIgnoresStep :=
  fun _ hhalt => ⟨stepEvent_of_halt hhalt, fun hsched => (step_of_schedule_nil hsched).trans (stepEvent_of_halt hhalt)⟩

end Sys2Proof.Machine

/-! # Jumps, call and return (41_jumps_calls.md): their effects and failures, and the jump that ends a run -/

namespace Sys2Proof.Machine

/-! ## Jumps (R110, R111) -/

/-- What a jump leaves alone: all but `pc`. -/
theorem registerShape_setPc_advance (s : State) (v : Word) : RegisterShape [] s (setPc (advance s) v) where
  regs := fun _ _ => rfl
  sp := rfl
  display := fun _ _ => rfl
  bytes := fun _ => rfl
  record := ⟨rfl, rfl, rfl, rfl⟩
  oracle := ⟨rfl, rfl⟩

/-- A jump to its own address undoes the advance of `pc` (R110). -/
theorem exec_jmp_self {addr : Addr} {s : State} (h : addr.toNat = s.pc.toNat) : exec (.jmp addr) s = .next s := by
  have htarget : zextAddr addr = s.pc := BitVec.eq_of_toNat_eq ((zextAddr_toNat addr).trans h)
  calc exec (.jmp addr) s = .next (setPc (advance s) (zextAddr addr)) := rfl
    _ = .next (setPc (advance s) s.pc) := by rw [htarget]
    _ = .next s := rfl

/-- An address and a byte are too small for their sum to wrap (R111; D32). -/
theorem zextAddr_add_zextByte_toNat (addr : Addr) (b : Byte) :
    (zextAddr addr + zextByte b).toNat = addr.toNat + b.toNat := by
  have haddr := addr.isLt
  have hbyte := b.isLt
  rw [BitVec.toNat_add, zextAddr_toNat, zextByte_toNat]
  omega

/-! ## The stack: push then pop, and the checks that fail (R112, R113) -/

/-- A pop loads the word that the push before it stored (10_state.md R26). -/
theorem popped_push {s : State} (w : Word) (h : 2 ≤ s.sp.toNat) : popped (push s w) = w := by
  have haddr : popAddr (push s w) = pushAddr s := by
    show (s.sp - 2).toNat = s.sp.toNat - 2
    bv_omega
  rw [popped, haddr, push_mem, readWord_writeWord_same]

theorem checkPush_of_full {s : State} (h : s.sp.toNat < 0xFE2) : checkPush s = some .stackOverflow :=
  if_pos h

theorem checkPop_of_empty {s : State} (h : 0x1000 ≤ s.sp.toNat) : checkPop s = some .stackUnderflow :=
  if_pos h

/-! ## Runs of Steps and Ticks -/

/-- Every run answers a next state, because every event does. -/
theorem runEvents_answers_next (es : List Event) (s : State) : ∃ t, runEvents es s = .next t := by
  induction es generalizing s with
  | nil => exact ⟨s, rfl⟩
  | cons e es ih =>
    obtain ⟨u, hu⟩ := applyEvent_answers_next e s
    obtain ⟨t, ht⟩ := ih u
    exact ⟨t, by rw [runEvents, hu]; exact ht⟩

/-- Where a Step changes nothing whatever the timer holds, a run of Steps and Ticks changes the timer only (R195). -/
theorem runEvents_of_step_fixed {es : List Event} {s t : State}
    (hfixed : ∀ d, stepEvent { s with DT := d } = .next { s with DT := d }) (hnoreset : ∀ prog, Event.reset prog ∉ es)
    (h : runEvents es s = .next t) : t = { s with DT := t.DT } := by
  refine runEvents_preserves (P := fun u => u = { s with DT := u.DT }) ?_ rfl h
  intro e he u v hu hv
  cases e with
  | step =>
    have hu' : stepEvent u = .next u := by rw [hu]; exact hfixed u.DT
    obtain rfl := next_inj (hu'.symm.trans hv)
    exact hu
  | tick =>
    obtain rfl := next_inj hv
    rw [tick_eq_withDT, hu]
  | reset prog => exact absurd he (hnoreset prog)

/-- A running block whose word at `pc` is a jump to `pc` is at a fixed point of Step (R110, R219; D28). -/
theorem completed_of_jmp_self {s : State} {addr : Addr} (hrun : Running s) (hpc : s.pc.toNat ≤ 4094)
    (hdec : decode (readWord s.mem s.pc.toNat) = some (.jmp addr)) (haddr : addr.toNat = s.pc.toNat) : Completed s :=
  ⟨hrun, (stepEvent_of_decode_some hrun hpc hdec).trans (exec_jmp_self haddr)⟩

/-! ## The obligations -/

/-- Settles O59: the jump completes the run whatever the timer holds, so Steps are idle and Ticks change the timer only. -/
theorem selfJumpCompletesRun : Obligations.SelfJumpCompletesRun := by
  intro s addr hrun hpc hdec haddr
  have hcompleted (d : Byte) : Completed { s with DT := d } := completed_of_jmp_self hrun hpc hdec haddr
  refine ⟨hcompleted s.DT, fun es hnoreset => ?_⟩
  obtain ⟨t, ht⟩ := runEvents_answers_next es s
  have htimer : t = { s with DT := t.DT } := runEvents_of_step_fixed (fun d => (hcompleted d).2) hnoreset ht
  exact ⟨t, ht, htimer, by rw [htimer]; exact hcompleted t.DT⟩

/-- Settles O22: both pass their checks, and the pop undoes the push. -/
theorem callThenReturnComesBack : Obligations.CallThenReturnComesBack := by
  intro addr s hlow hhigh
  have hpushed : (s.sp - 2).toNat ≤ 0xFFE := by bv_omega
  refine ⟨_, _, exec_call_of_room addr hlow hhigh, exec_ret_of_pushed hpushed, ?_, BitVec.sub_add_cancel _ _⟩
  show popped (push (advance s) (s.pc + 2)) = s.pc + 2
  exact popped_push _ (Nat.le_trans (by decide) hlow)

/-- Settles O17: the decoder looks at the major opcode only, and a jump writes `pc` only. -/
theorem jumpLoadsAddress : Obligations.JumpLoadsAddress := by
  refine ⟨fun w hw => ?_, fun addr s => ⟨?_, exec_jmp_self⟩⟩
  · rw [decode, opField_of_F000 hw]; rfl
  · exact ⟨_, rfl, zextAddr_toNat addr, registerShape_setPc_advance s _, rfl, rfl⟩

/-- Settles O18: the sum of the address and `V[0]` fits in `pc`. -/
theorem jumpV0AddsRegister : Obligations.JumpV0AddsRegister :=
  fun addr s => ⟨_, rfl, zextAddr_add_zextByte_toNat addr _, registerShape_setPc_advance s _, rfl, rfl⟩

/-- Settles O21: the stack's own check comes first, and where it passes the check of the access fails outside memory. -/
theorem stackFailures : Obligations.StackFailures := by
  intro addr s
  refine ⟨fun hfull => ?_, fun hout => ?_, fun hempty => ?_, fun hlast => ?_⟩
  · exact attempt_failed (by rw [checkPush_of_full hfull, Option.some_or]) _ _ _
  · have hpush : checkPush s = none := checkPush_eq_none.2 (by simp only [Config.stackBase]; omega)
    have hstore : checkWrite (pushAddr s) 2 = some .dataBounds :=
      checkWrite_of_outside (by decide) (by simp only [pushAddr, Config.memCapacity]; omega)
    exact attempt_failed (by rw [hpush, Option.none_or, hstore]) _ _ _
  · exact attempt_failed (by rw [checkPop_of_empty hempty, Option.some_or]) _ _ _
  · have hpop : checkPop s = none := checkPop_eq_none.2 (by simp only [Config.stackTop]; omega)
    have hload : checkRead (popAddr s) 2 = some .dataBounds :=
      checkRead_eq_some.2 ⟨rfl, by decide, by simp only [popAddr, Config.memCapacity]; omega⟩
    exact attempt_failed (by rw [hpop, Option.none_or, hload]) _ _ _

end Sys2Proof.Machine

/-! # Moves (42_moves.md): what they load, and that only `ADD I,Vx` leads `I` past 4095 -/

namespace Sys2Proof.Machine

/-! ## Frames of the rules that write registers, `I`, the timer and `pc` -/

/-- New values of `I`, `pc` and the timer leave everything else alone. -/
theorem registerShape_withIndexPcTimer (l : List Nibble) (s : State) (i p : Word) (d : Byte) :
    RegisterShape l s { s with I := i, pc := p, DT := d } where
  regs := fun _ _ => rfl
  sp := rfl
  display := fun _ _ => rfl
  bytes := fun _ => rfl
  record := ⟨rfl, rfl, rfl, rfl⟩
  oracle := ⟨rfl, rfl⟩

/-- The advance falls through and changes nothing else (40_step_cycle.md R101). -/
theorem writesRegs_advance (l : List Nibble) (s : State) : WritesRegs l s (advance s) where
  shape := registerShape_withIndexPcTimer l s _ _ _
  pc := rfl
  index := rfl
  timer := rfl

/-- A write to a listed register keeps the frame of the list (10_state.md R22). -/
theorem WritesRegs.setV {l : List Nibble} {s t : State} (h : WritesRegs l s t) {x : Nibble} (hx : x ∈ l) (v : Byte) :
    WritesRegs l s (setV t x v) where
  shape := { h.shape with regs := h.shape.regs.setV hx v }
  pc := h.pc
  index := h.index
  timer := h.timer

/-! ## The Tick after a move to the timer -/

/-- A Tick takes the timer down by one, floored at 0 (60_exceptions.md R193). -/
theorem tick_DT_toNat (s : State) : (tick s).DT.toNat = s.DT.toNat - 1 := by
  unfold tick
  split
  case isTrue hzero => rw [hzero]; rfl
  case isFalse hpos =>
    rw [setDT_DT]
    bv_omega

/-! ## The obligations -/

/-- Settles O24: the decoder looks at the major opcode only and the move writes `I`; of the three writers of `I`, an address
and a glyph's address are at most 4095. -/
theorem moveLoadsIndex : Obligations.MoveLoadsIndex := by
  refine ⟨fun w hw => ?_, fun addr s => ?_, fun s t hstep hne habove => ?_⟩
  · rw [decode, opField_of_F000 hw]; rfl
  · exact ⟨_, rfl, zextAddr_toNat addr, rfl, rfl, registerShape_withIndexPcTimer _ s _ _ _⟩
  · obtain ⟨w, i, hfetch, hdec, hwriter⟩ := indexChangesInThreeWays s t hstep hne
    rcases hwriter with ⟨addr, -, hI⟩ | ⟨x, rfl, -⟩ | ⟨x, d, -, hd, hI⟩
    · have haddr := addr.isLt
      omega
    · exact ⟨w, x, hfetch, hdec⟩
    · omega

/-- Settles O23: the decoder looks at the bits each mask keeps, and each move writes `V[x]` only. -/
theorem movesLoadTheRegister : Obligations.MovesLoadTheRegister := by
  refine ⟨fun w => ⟨fun hw => ?_, fun hw => ?_, fun hw => ?_⟩, fun x y kk s => ⟨?_, ?_, ?_⟩⟩
  · rw [decode, opField_of_F000 hw]; rfl
  · obtain ⟨hop, hn⟩ := fields_of_F00F hw
    rw [decode_of_op_8 hop, decodeAlu, hn]; rfl
  · obtain ⟨hop, hkk⟩ := fields_of_F0FF hw
    rw [decode_of_op_F hop, decodeMisc, hkk]; rfl
  all_goals exact ⟨_, rfl, getV_setV_same _ x _, (writesRegs_advance _ s).setV List.mem_cons_self _⟩

/-- Settles O26: the decoder looks at the major opcode and `kk`, the move writes the timer only, and a Tick takes its value
down by one. -/
theorem moveSetsTimer : Obligations.MoveSetsTimer := by
  refine ⟨fun w hw => ?_, fun x s => ?_⟩
  · obtain ⟨hop, hkk⟩ := fields_of_F0FF hw
    rw [decode_of_op_F hop, decodeMisc, hkk]; rfl
  · exact ⟨_, rfl, rfl, rfl, rfl, registerShape_withIndexPcTimer _ s _ _ _, tick_DT_toNat _⟩

end Sys2Proof.Machine

/-! # Arithmetic, logic, shifts and the random draw (43_alu.md): results, flags and frames -/

namespace Sys2Proof.Machine

/-! ## The flags as numbers -/

/-- A flag is the number of its condition. -/
@[simp] theorem flag_toNat (b : Bool) : (flag b).toNat = b.toNat := by cases b <;> rfl

/-- The carry is the ninth bit of the sum (R131). -/
theorem carryFlag_toNat (a b : Byte) : (carryFlag a b).toNat = (a.toNat + b.toNat) / 256 := by
  have hsum : a.toNat + b.toNat < 2 * 256 := by omega
  rw [carryFlag, flag_toNat]
  by_cases hcarry : a.toNat + b.toNat > 255
  · rw [decide_eq_true hcarry, Bool.toNat_true]
    omega
  · rw [decide_eq_false hcarry, Bool.toNat_false]
    omega

/-- NOT borrow is 1 exactly when the subtrahend is not the greater one (R133; D20). -/
theorem notBorrowFlag_eq (a b : Byte) : notBorrowFlag a b = if b.toNat ≤ a.toNat then 1 else 0 := by
  simp only [notBorrowFlag, flag, decide_eq_true_eq, ge_iff_le]

/-- The flag of `SHR Vx` is the parity of the value (R138). -/
theorem lowBitFlag_toNat (a : Byte) : (lowBitFlag a).toNat = a.toNat % 2 := by
  rw [lowBitFlag, BitVec.toNat_and]
  exact Nat.and_one_is_mod _

/-- The flag of `SHL Vx` is the top bit of the value (R139). -/
theorem highBitFlag_toNat (a : Byte) : (highBitFlag a).toNat = a.toNat / 128 := by
  have hlt : a.toNat / 128 < 2 := by omega
  calc (highBitFlag a).toNat = (a.toNat >>> 7) % 2 := by
        rw [highBitFlag, BitVec.toNat_and, BitVec.toNat_ushiftRight]
        exact Nat.and_one_is_mod _
    _ = a.toNat / 128 := by rw [Nat.shiftRight_eq_div_pow]; exact Nat.mod_eq_of_lt hlt

/-! ## The two orders of writing a result and its flag (00_scope.md R8) -/

/-- The flag written last stands in VF, whatever the destination is. -/
@[simp] theorem getV_resultThenFlag_vf (s : State) (x : Nibble) (result f : Byte) :
    getV (resultThenFlag s x result f) vf = f := getV_setV_same _ vf f

/-- A destination other than VF keeps the result. -/
theorem getV_resultThenFlag_of_ne (s : State) {x : Nibble} (hx : x ≠ vf) (result f : Byte) :
    getV (resultThenFlag s x result f) x = result := by
  rw [resultThenFlag, getV_setV_other _ _ _ _ hx, getV_setV_same]

/-- A destination other than VF is shifted as it stood, and VF keeps the flag written first. -/
theorem getV_flagThenShift_of_ne (s : State) {x : Nibble} (hx : x ≠ vf) (f : Byte) (shift : Byte → Byte) :
    getV (flagThenShift s x f shift) x = shift (getV s x) ∧ getV (flagThenShift s x f shift) vf = f := by
  constructor
  · rw [flagThenShift, getV_setV_same, getV_setV_other _ _ _ _ hx]
  · rw [flagThenShift, getV_setV_other _ _ _ _ hx.symm, getV_setV_same]

/-- With VF as destination it is the flag that is shifted (D18). -/
theorem getV_flagThenShift_vf (s : State) (f : Byte) (shift : Byte → Byte) :
    getV (flagThenShift s vf f shift) vf = shift f := by
  rw [flagThenShift, getV_setV_same, getV_setV_same]

/-- The result and the flag write `V[x]` and VF only, and the instruction falls through. -/
theorem writesRegs_resultThenFlag (s : State) (x : Nibble) (result f : Byte) :
    WritesRegs [x, vf] s (resultThenFlag (advance s) x result f) :=
  ((writesRegs_advance _ s).setV (by simp) _).setV (by simp) _

/-- So do the flag and the shift. -/
theorem writesRegs_flagThenShift (s : State) (x : Nibble) (f : Byte) (shift : Byte → Byte) :
    WritesRegs [x, vf] s (flagThenShift (advance s) x f shift) :=
  ((writesRegs_advance _ s).setV (by simp) _).setV (by simp) _

/-- The result of an instruction without a flag is the only write to a register. -/
theorem writesRegs_setV_advance (s : State) (x : Nibble) (v : Byte) : WritesRegs [x] s (setV (advance s) x v) :=
  (writesRegs_advance _ s).setV List.mem_cons_self v

/-! ## Byte arithmetic and the draw as numbers (R140, R141) -/

/-- A byte difference is the difference modulo 256, taken in naturals by adding 256 first. -/
theorem byteSub_toNat (a b : Byte) : (a - b).toNat = (a.toNat + 256 - b.toNat) % 256 := by
  rw [BitVec.toNat_sub]
  congr 1
  omega

/-- A shift left by one doubles modulo 256. -/
theorem byteShl_toNat (a : Byte) : (a <<< 1).toNat = 2 * a.toNat % 256 := by
  rw [BitVec.toNat_shiftLeft, Nat.shiftLeft_eq, Nat.mul_comm]

/-- A shift right by one halves. -/
theorem byteShr_toNat (a : Byte) : (a >>> 1).toNat = a.toNat / 2 := by
  rw [BitVec.toNat_ushiftRight, Nat.shiftRight_eq_div_pow]

/-- The draw is the free byte modulo the size of the range. -/
theorem boundedDraw_toNat (free kk : Byte) : (boundedDraw free kk).toNat = free.toNat % (kk.toNat + 1) := by
  have hle : free.toNat % (kk.toNat + 1) ≤ free.toNat := Nat.mod_le _ _
  rw [boundedDraw, BitVec.toNat_ofNat]
  omega

/-- The draw is in the range. -/
theorem boundedDraw_le (free kk : Byte) : (boundedDraw free kk).toNat ≤ kk.toNat := by
  rw [boundedDraw_toNat]
  exact Nat.le_of_lt_succ (Nat.mod_lt _ (Nat.succ_pos _))

/-- A free byte in the range is its own draw. -/
theorem boundedDraw_of_le {r kk : Byte} (h : r.toNat ≤ kk.toNat) : boundedDraw r kk = r := by
  apply BitVec.eq_of_toNat_eq
  rw [boundedDraw_toNat, Nat.mod_eq_of_lt (Nat.lt_succ_of_le h)]

/-- `RND Vx,kk` leaves the draw in `V[x]`. -/
@[simp] theorem getV_rndWith_same (free : Byte) (x : Nibble) (kk : Byte) (s : State) :
    getV (rndWith free x kk s) x = boundedDraw free kk := getV_setV_same _ x _

/-! ## The obligations -/

/-- Settles O28: the carry is written last, so VF ends as the carry for every destination. -/
theorem addRegisterSetsCarry : Obligations.AddRegisterSetsCarry := by
  refine fun x y s => ⟨_, rfl, fun hx => ?_, ?_, writesRegs_resultThenFlag s x _ _⟩
  · rw [getV_resultThenFlag_of_ne _ hx, BitVec.toNat_add]
  · rw [getV_resultThenFlag_vf, carryFlag_toNat]

/-- Settles O30: NOT borrow is written last, so VF ends as the flag for every destination. -/
theorem subRegisterSetsNotBorrow : Obligations.SubRegisterSetsNotBorrow := by
  refine fun x y s => ⟨_, rfl, fun hx => ?_, ?_, writesRegs_resultThenFlag s x _ _⟩
  · rw [getV_resultThenFlag_of_ne _ hx, byteSub_toNat]
  · rw [getV_resultThenFlag_vf, notBorrowFlag_eq]

/-- Settles O33: the flag is written first; with VF as destination it is bit 0 that is halved, to 0. -/
theorem shiftRightHalves : Obligations.ShiftRightHalves := by
  refine fun x s => ⟨_, rfl, fun hx => ?_, ?_, writesRegs_flagThenShift s x _ _⟩
  · obtain ⟨hresult, hflag⟩ := getV_flagThenShift_of_ne (advance s) hx (lowBitFlag (getV s x)) (fun v => v >>> 1)
    rw [hresult, hflag, getV_advance, byteShr_toNat, lowBitFlag_toNat]
    exact ⟨rfl, rfl⟩
  · rintro rfl
    rw [getV_flagThenShift_vf]
    apply BitVec.eq_of_toNat_eq
    rw [byteShr_toNat, lowBitFlag_toNat]
    exact Nat.div_eq_of_lt (Nat.mod_lt _ Nat.two_pos)

/-- Settles O34: the flag is written first; with VF as destination it is bit 7 that is doubled. -/
theorem shiftLeftDoubles : Obligations.ShiftLeftDoubles := by
  refine fun x s => ⟨_, rfl, fun hx => ?_, ?_, writesRegs_flagThenShift s x _ _⟩
  · obtain ⟨hresult, hflag⟩ := getV_flagThenShift_of_ne (advance s) hx (highBitFlag (getV s x)) (fun v => v <<< 1)
    rw [hresult, hflag, getV_advance, byteShl_toNat, highBitFlag_toNat]
    exact ⟨rfl, rfl⟩
  · rintro rfl
    rw [getV_flagThenShift_vf]
    apply BitVec.eq_of_toNat_eq
    rw [byteShl_toNat, highBitFlag_toNat]
    split
    case isTrue hhigh => show _ = 2; omega
    case isFalse hlow => show _ = 0; omega

/-- Settles O36: a value of the range is the draw of the free byte that equals it. -/
theorem randomAdmitsWholeRange : Obligations.RandomAdmitsWholeRange := by
  refine fun x kk r s hr => ⟨⟨r, ?_⟩, rfl⟩
  rw [getV_rndWith_same, boundedDraw_of_le hr]

/-- Settles O27: the sum of the bytes wraps, and only `V[x]` is written. -/
theorem addImmediateWraps : Obligations.AddImmediateWraps := by
  refine fun x kk s => ⟨_, rfl, ?_, writesRegs_setV_advance s x _⟩
  rw [getV_setV_same, BitVec.toNat_add]

/-- Settles O29: the sum of the words wraps, and no register is written. -/
theorem addIndexWraps : Obligations.AddIndexWraps := by
  refine fun x s => ⟨_, rfl, ?_, rfl, rfl, registerShape_withIndexPcTimer _ s _ _ _⟩
  rw [setI_I, BitVec.toNat_add, zextByte_toNat]

/-- Settles O31: the reversed difference wraps, and only `V[x]` is written. -/
theorem reversedSubtractLeavesFlag : Obligations.ReversedSubtractLeavesFlag := by
  refine fun x y s => ⟨_, rfl, ?_, writesRegs_setV_advance s x _⟩
  rw [getV_setV_same, byteSub_toNat]

/-- Settles O32: each result is read back from `V[x]` and looked at bit by bit. -/
theorem logicIsBitwise : Obligations.LogicIsBitwise := by
  refine fun x y s => ⟨⟨_, rfl, writesRegs_setV_advance s x _, fun b => ?_⟩,
    ⟨_, rfl, writesRegs_setV_advance s x _, fun b => ?_⟩, ⟨_, rfl, writesRegs_setV_advance s x _, fun b => ?_⟩⟩
  · rw [getV_setV_same, BitVec.getLsbD_or]
  · rw [getV_setV_same, BitVec.getLsbD_and]
  · rw [getV_setV_same, BitVec.getLsbD_xor]

/-- Settles O35: the draw is in the range for every free byte, and it is the only write to a register. -/
theorem randomStaysInRange : Obligations.RandomStaysInRange := by
  refine fun x kk s => ⟨_, rfl, ?_, ?_, ?_, rfl, rfl, rfl, rfl, fun _ _ => rfl, fun _ => rfl, ⟨rfl, rfl, rfl, rfl⟩, rfl, rfl⟩
  · rw [getV_rndWith_same]
    exact boundedDraw_le _ kk
  · rintro rfl
    rw [getV_rndWith_same]
    exact BitVec.eq_of_toNat_eq (Nat.le_zero.1 (boundedDraw_le _ 0))
  · have hdraw : SameRegs [x] s (nextDraw (advance s)) := fun _ _ => rfl
    exact hdraw.setV List.mem_cons_self _

end Sys2Proof.Machine

/-! # Conditional skips (44_skips.md): their words, and that they move `pc` only -/

namespace Sys2Proof

/-- Under major opcode 5 the decoder asks that nibble 3 be 0 (R152). -/
theorem decode_of_op_5 {w : Word} (hop : opField w = 0x5) :
    decode w = if nField w = 0 then some (.skeReg (xField w) (yField w)) else none := by
  rw [decode, hop]; rfl

/-- Under major opcode 9 the decoder asks that nibble 3 be 0 (R154). -/
theorem decode_of_op_9 {w : Word} (hop : opField w = 0x9) :
    decode w = if nField w = 0 then some (.skneReg (xField w) (yField w)) else none := by
  rw [decode, hop]; rfl

end Sys2Proof

namespace Sys2Proof.Machine

/-! ## The effect of a skip (R150) -/

/-- The outcome `o` from the state `s` is a next state in which `pc` is `p` and everything else is as it was in `s`. -/
def OnlyMovesPc (o : Host.Outcome State Fault Refusal) (s : State) (p : Word) : Prop :=
  ∃ t, o = .next t ∧ t.pc = p ∧ RegisterShape [] s t ∧ t.I = s.I ∧ t.DT = s.DT

/-- A skip moves `pc` only: by two advances when its condition holds, and by one when not. -/
theorem skipIf_onlyMovesPc (cond : Bool) (s : State) :
    OnlyMovesPc (skipIf cond s) s (if cond then s.pc + 4 else s.pc + 2) := by
  cases cond with
  | true => exact ⟨_, rfl, BitVec.add_assoc s.pc 2 2, registerShape_withIndexPcTimer _ s _ _ _, rfl, rfl⟩
  | false => exact ⟨_, rfl, rfl, registerShape_withIndexPcTimer _ s _ _ _, rfl, rfl⟩

/-- The skip of the `SKE` forms, whose condition is that the two bytes are equal (R151, R152). -/
theorem skipIf_beq_onlyMovesPc (a b : Byte) (s : State) :
    OnlyMovesPc (skipIf (a == b) s) s (if a = b then s.pc + 4 else s.pc + 2) := by
  simpa only [beq_iff_eq] using skipIf_onlyMovesPc (a == b) s

/-- The skip of the `SKNE` forms, whose condition is that the two bytes differ (R153, R154). -/
theorem skipIf_bne_onlyMovesPc (a b : Byte) (s : State) :
    OnlyMovesPc (skipIf (a != b) s) s (if a = b then s.pc + 2 else s.pc + 4) := by
  simpa only [bne_iff_ne, ne_eq, ite_not] using skipIf_onlyMovesPc (a != b) s

/-! ## The obligations -/

/-- Settles O37: the decoder looks at the major opcode only, and both instructions are a skip on the register and the
immediate. -/
theorem skipOnImmediate : Obligations.SkipOnImmediate := by
  refine ⟨fun w => ⟨fun hw => ?_, fun hw => ?_⟩, fun x kk s => ⟨?_, ?_⟩⟩
  · rw [decode, opField_of_F000 hw]; rfl
  · rw [decode, opField_of_F000 hw]; rfl
  · exact skipIf_beq_onlyMovesPc (getV s x) kk s
  · exact skipIf_bne_onlyMovesPc (getV s x) kk s

/-- Settles O38: the decoder looks at the major opcode and nibble 3, and both instructions are a skip on the two registers. -/
theorem skipOnRegister : Obligations.SkipOnRegister := by
  refine ⟨fun w => ⟨fun hw => ?_, fun hw => ?_, fun hw hn => ?_⟩, fun x y s => ⟨?_, ?_⟩⟩
  · obtain ⟨hop, hn⟩ := fields_of_F00F hw
    exact (decode_of_op_5 hop).trans (if_pos hn)
  · obtain ⟨hop, hn⟩ := fields_of_F00F hw
    exact (decode_of_op_9 hop).trans (if_pos hn)
  · rcases hw with hw | hw
    · exact (decode_of_op_5 (opField_of_F000 hw)).trans (if_neg hn)
    · exact (decode_of_op_9 (opField_of_F000 hw)).trans (if_neg hn)
  · exact skipIf_beq_onlyMovesPc (getV s x) (getV s y) s
  · exact skipIf_bne_onlyMovesPc (getV s x) (getV s y) s

end Sys2Proof.Machine

/-! # Display (45_display.md): the sprite as a list of cells, and what `CLS` and `DRW` do to the cells and to VF -/

namespace Sys2Proof.Machine

/-! ## Toggling a list of cells -/

/-- Toggle one cell: a cell that was lit is a collision (R161). The pair is the grid and the collision so far. -/
def toggleCell (acc : Grid × Bool) (p : Fin 32 × Fin 64) : Grid × Bool :=
  (putPx acc.1 p.1 p.2 (!getPx acc.1 p.1 p.2), acc.2 || getPx acc.1 p.1 p.2)

theorem getPx_toggleCell_of_ne (acc : Grid × Bool) {p q : Fin 32 × Fin 64} (h : q ≠ p) :
    getPx (toggleCell acc p).1 q.1 q.2 = getPx acc.1 q.1 q.2 := by
  rw [toggleCell, getPx_putPx, if_neg (fun e => h (Prod.ext e.1 e.2))]

theorem getPx_toggleCell_same (acc : Grid × Bool) (p : Fin 32 × Fin 64) :
    getPx (toggleCell acc p).1 p.1 p.2 = !getPx acc.1 p.1 p.2 := by
  rw [toggleCell, getPx_putPx, if_pos ⟨rfl, rfl⟩]

/-- Cells outside the list stay as they were. -/
theorem getPx_foldl_toggleCell_of_notMem {l : List (Fin 32 × Fin 64)} (acc : Grid × Bool) {q : Fin 32 × Fin 64}
    (h : q ∉ l) : getPx (l.foldl toggleCell acc).1 q.1 q.2 = getPx acc.1 q.1 q.2 := by
  induction l generalizing acc with
  | nil => rfl
  | cons p l ih =>
    obtain ⟨hp, hl⟩ := not_or.1 (List.mem_cons.not.1 h)
    rw [List.foldl_cons, ih _ hl, getPx_toggleCell_of_ne _ hp]

/-- Cells of a list without repetition toggle once. -/
theorem getPx_foldl_toggleCell_of_mem {l : List (Fin 32 × Fin 64)} (acc : Grid × Bool) (hl : l.Nodup)
    {q : Fin 32 × Fin 64} (h : q ∈ l) : getPx (l.foldl toggleCell acc).1 q.1 q.2 = !getPx acc.1 q.1 q.2 := by
  induction l generalizing acc with
  | nil => cases h
  | cons p l ih =>
    obtain ⟨hp, hl⟩ := List.nodup_cons.1 hl
    rw [List.foldl_cons]
    rcases List.mem_cons.1 h with rfl | hq
    · rw [getPx_foldl_toggleCell_of_notMem _ hp, getPx_toggleCell_same]
    · rw [ih _ hl hq, getPx_toggleCell_of_ne _ (ne_of_mem_of_not_mem hq hp)]

/-- Toggling a list without repetition collides when a cell of it was lit before the first toggle. -/
theorem foldl_toggleCell_collision_iff {l : List (Fin 32 × Fin 64)} (acc : Grid × Bool) (hl : l.Nodup) :
    (l.foldl toggleCell acc).2 = true ↔ acc.2 = true ∨ ∃ p ∈ l, getPx acc.1 p.1 p.2 = true := by
  induction l generalizing acc with
  | nil => simp
  | cons p l ih =>
    obtain ⟨hp, hl⟩ := List.nodup_cons.1 hl
    have hrest : (∃ q ∈ l, getPx (toggleCell acc p).1 q.1 q.2 = true) ↔ ∃ q ∈ l, getPx acc.1 q.1 q.2 = true :=
      exists_congr fun q => and_congr_right fun hq => by rw [getPx_toggleCell_of_ne _ (ne_of_mem_of_not_mem hq hp)]
    rw [List.foldl_cons, ih _ hl, hrest]
    simp [toggleCell, or_assoc]

/-! ## The cells of a sprite -/

/-- The sprite's byte has a 1 at the pixel of row `p.1`, column `p.2`; bit 7 is column 0 (R162). -/
def pixelSet (m : Memory) (base : Nat) (p : Nat × Nat) : Bool := (readByte m (base + p.1)).getLsbD (7 - p.2)

/-- The cell under the pixel of row `p.1`, column `p.2`; both axes wrap (R163). -/
def pixelCell (x0 y0 : Nat) (p : Nat × Nat) : Fin 32 × Fin 64 := (Fin.ofNat 32 (y0 + p.1), Fin.ofNat 64 (x0 + p.2))

/-- The cells that a sprite toggles, in the order of the draw. -/
def spriteCells (m : Memory) (base x0 y0 n : Nat) : List (Fin 32 × Fin 64) :=
  ((List.range n ×ˢ List.range 8).filter (pixelSet m base)).map (pixelCell x0 y0)

/-- Drawing row by row is drawing pixel by pixel. -/
theorem foldl_blitRow_eq_foldl_blitBit (m : Memory) (base x0 y0 : Nat) (rows : List Nat) (acc : Grid × Bool) :
    rows.foldl (blitRow m base x0 y0) acc =
      (rows ×ˢ List.range 8).foldl (fun acc p => blitBit x0 y0 p.1 (readByte m (base + p.1)) acc p.2) acc := by
  induction rows generalizing acc with
  | nil => rfl
  | cons row rows ih => rw [List.foldl_cons, ih, List.product_cons, List.foldl_append, List.foldl_map, blitRow]

/-- The draw toggles the cells of the sprite one after another (R161). -/
theorem blit_eq_foldl_toggleCell (m : Memory) (base x0 y0 n : Nat) (g : Grid) :
    blit m base x0 y0 n g = (spriteCells m base x0 y0 n).foldl toggleCell (g, false) := by
  rw [blit, foldl_blitRow_eq_foldl_blitBit, spriteCells, List.foldl_map, List.foldl_filter]
  rfl

/-- The list holds the cells that the sprite covers. -/
theorem mem_spriteCells {m : Memory} {base x0 y0 n : Nat} {r : Fin 32} {c : Fin 64} :
    (r, c) ∈ spriteCells m base x0 y0 n ↔ SpriteCovers m base x0 y0 n r c := by
  simp [spriteCells, SpriteCovers, pixelSet, pixelCell, Fin.ext_iff, and_assoc, and_left_comm, and_comm]

/-- A sprite of at most 32 rows lies on each cell once: no two of its pixels wrap onto the same one. -/
theorem nodup_spriteCells (m : Memory) (base x0 y0 : Nat) {n : Nat} (hn : n ≤ 32) : (spriteCells m base x0 y0 n).Nodup := by
  rw [spriteCells, List.nodup_map_iff_inj_on ((List.nodup_range.product List.nodup_range).filter _)]
  rintro ⟨row, col⟩ hp ⟨row', col'⟩ hq hcell
  simp only [List.mem_filter, List.mem_product, List.mem_range] at hp hq
  simp only [pixelCell, Prod.mk.injEq, Fin.ext_iff, Fin.val_ofNat] at hcell
  obtain ⟨⟨hrow, hcol⟩, -⟩ := hp
  obtain ⟨⟨hrow', hcol'⟩, -⟩ := hq
  rw [Prod.mk.injEq]
  omega

/-- The cells that `DRW Vx,Vy,n` toggles in the state `s`. -/
def drawCells (s : State) (x y n : Nibble) : List (Fin 32 × Fin 64) :=
  spriteCells s.mem (indexAddr s) (getV s x).toNat (getV s y).toNat n.toNat

theorem mem_drawCells {s : State} {x y n : Nibble} {r : Fin 32} {c : Fin 64} :
    (r, c) ∈ drawCells s x y n ↔ DrawCovers s x y n r c :=
  mem_spriteCells

theorem nodup_drawCells (s : State) (x y n : Nibble) : (drawCells s x y n).Nodup :=
  nodup_spriteCells _ _ _ _ (Nat.le_of_lt (n.isLt.trans (by decide)))

/-- The grid and the collision that `DRW Vx,Vy,n` leaves. -/
def drawResult (s : State) (x y n : Nibble) : Grid × Bool := (drawCells s x y n).foldl toggleCell (s.Px, false)

/-- The draw collides when one of its cells is lit (R161). -/
theorem drawResult_collision_iff {s : State} {x y n : Nibble} :
    (drawResult s x y n).2 = true ↔ ∃ r c, DrawCovers s x y n r c ∧ getPx s.Px r c = true := by
  simp [drawResult, foldl_toggleCell_collision_iff _ (nodup_drawCells s x y n), mem_drawCells]

/-- A draw whose sprite lies in memory, or has no row, passes its check (R161). -/
theorem exec_drw_of_fits {x y n : Nibble} {s : State} (h : n = 0 ∨ indexAddr s + n.toNat ≤ 4096) :
    exec (.drw x y n) s =
      .next (setV (setPx (advance s) (drawResult s x y n).1) vf (collisionFlag (drawResult s x y n).2)) := by
  have hcheck : checkRead (indexAddr s) n.toNat = none := checkRead_eq_none.2 (h.imp_left fun hn => by rw [hn]; rfl)
  rw [exec, execDrw, hcheck, attempt_none, blit_eq_foldl_toggleCell, drawResult, drawCells]

/-! ## Frames -/

/-- A new display and the advance leave everything else alone. -/
theorem displayShape_setPx_advance (l : List Nibble) (s : State) (g : Grid) : DisplayShape l s (setPx (advance s) g) where
  regs := fun _ _ => rfl
  pc := rfl
  index := rfl
  sp := rfl
  timer := rfl
  bytes := fun _ => rfl
  record := ⟨rfl, rfl, rfl, rfl⟩
  oracle := ⟨rfl, rfl⟩

/-- A write to a listed register keeps the frame of the list (10_state.md R22). -/
theorem DisplayShape.setV {l : List Nibble} {s t : State} (h : DisplayShape l s t) {x : Nibble} (hx : x ∈ l) (v : Byte) :
    DisplayShape l s (setV t x v) :=
  { h with regs := h.regs.setV hx v }

/-- The cells a draw covers depend on memory, `I` and the two coordinates only. -/
theorem drawCovers_congr {s t : State} {x y : Nibble} (hbytes : SameBytes s t) (hI : t.I = s.I) (hx : getV t x = getV s x)
    (hy : getV t y = getV s y) (n : Nibble) (r : Fin 32) (c : Fin 64) : DrawCovers t x y n r c ↔ DrawCovers s x y n r c := by
  have hread : readByte t.mem = readByte s.mem := funext hbytes
  simp only [DrawCovers, SpriteCovers, indexAddr, hread, hI, hx, hy]

/-! ## The obligations -/

/-- Settles O40: the draw toggles each cell of the sprite's list once, and the list holds the covered cells. -/
theorem drawTogglesTheSprite : Obligations.DrawTogglesTheSprite := by
  intro x y n s hfits
  refine ⟨_, exec_drw_of_fits hfits, fun r c hcov => ?_, fun r c hcov => ?_, fun hlit => ?_, fun hunlit => ?_, ?_⟩
  · exact getPx_foldl_toggleCell_of_mem _ (nodup_drawCells s x y n) (mem_drawCells.2 hcov)
  · exact getPx_foldl_toggleCell_of_notMem _ (mem_drawCells.not.2 hcov)
  · rw [getV_setV_same, drawResult_collision_iff.2 hlit]
    rfl
  · have hnone : ¬ ∃ r c, DrawCovers s x y n r c ∧ getPx s.Px r c = true := fun ⟨r, c, hcov, hpx⟩ => by
      simp [hunlit r c hcov] at hpx
    rw [getV_setV_same, Bool.eq_false_iff.2 (drawResult_collision_iff.not.2 hnone)]
    rfl
  · exact (displayShape_setPx_advance _ s _).setV List.mem_cons_self _

/-- Settles O41: the first draw leaves memory, `I` and the coordinates, so the second toggles the same cells back and
collides on those that the first left lit. -/
theorem drawTwiceRestoresDisplay : Obligations.DrawTwiceRestoresDisplay := by
  intro x y n s hx hy hfits
  obtain ⟨t, ht, hon, hoff, -, -, hframe⟩ := drawTogglesTheSprite x y n s hfits
  have hfits' : n = 0 ∨ indexAddr t + n.toNat ≤ 4096 := by rwa [indexAddr, hframe.index]
  obtain ⟨u, hu, hon', hoff', hhit, hmiss, -⟩ := drawTogglesTheSprite x y n t hfits'
  have hcovers := drawCovers_congr hframe.bytes hframe.index (hframe.regs x (by simpa using hx))
    (hframe.regs y (by simpa using hy)) n
  simp only [hcovers] at hon' hoff' hhit hmiss
  refine ⟨t, u, ht, hu, fun r c => ?_, fun hflag => ?_, hhit⟩
  · by_cases hcov : DrawCovers s x y n r c
    · rw [hon' r c hcov, hon r c hcov, Bool.not_not]
    · rw [hoff' r c hcov, hoff r c hcov]
  · by_contra hnone
    have hunlit : ∀ r c, DrawCovers s x y n r c → getPx t.Px r c = false :=
      fun r c hcov => Bool.eq_false_iff.2 fun hpx => hnone ⟨r, c, hcov, hpx⟩
    rw [hmiss hunlit] at hflag
    exact absurd hflag (by decide)

/-- Settles O39: after the clear no cell is lit, so no draw finds a lit cell under its sprite. -/
theorem clearUnlightsEveryCell : Obligations.ClearUnlightsEveryCell := by
  refine ⟨rfl, fun s => ⟨_, rfl, getPx_clearGrid, displayShape_setPx_advance _ s _, fun x y n hfits => ?_⟩⟩
  obtain ⟨u, hu, -, -, -, hmiss, -⟩ := drawTogglesTheSprite x y n (setPx (advance s) clearGrid) hfits
  exact ⟨u, hu, hmiss fun r c _ => getPx_clearGrid r c⟩

end Sys2Proof.Machine

/-! # Memory instructions (46_memory_ops.md): what `BCD`, `STR` and `LD` move between registers and memory -/

namespace Sys2Proof.Machine

/-! ## A run of bytes stored at `I` (20_memory.md R57, R60) -/

/-- Byte `k` of a stored run is read back `k` above its base. -/
theorem readByte_writeRun_add (bs : List Byte) (m : Memory) (base k : Nat) :
    readByte (writeRun m base bs) (base + k) = bs.getD k (readByte m (base + k)) := by
  rw [readByte_writeRun, if_pos (Nat.le_add_right base k), Nat.add_sub_cancel_left]

/-- A run of bytes stored by an instruction that falls through leaves everything outside the run alone. -/
theorem storeShape_writeRun (s : State) (base : Nat) (bs : List Byte) :
    StoreShape base bs.length s (setMem (advance s) (writeRun s.mem base bs)) where
  bytes := fun _ ha => readByte_writeRun_outside bs s.mem ha
  regs := fun _ _ => rfl
  index := rfl
  timer := rfl
  display := fun _ _ => rfl
  record := ⟨rfl, rfl, rfl, rfl⟩
  oracle := ⟨rfl, rfl⟩

/-! ## The registers that `LD` loads and `STR` stores (R171, R172) -/

/-- A block load that falls through writes the registers up to `x` only. (The field laws carry the proof: a bare `rfl` would
compare the whole register file.) -/
theorem writesRegs_setVUpTo_advance (s : State) (x : Nibble) (f : Nat → Byte) :
    WritesRegs (writtenRegs (.ld x)) s (setVUpTo (advance s) x f) where
  shape :=
    { regs := sameRegs_setVUpTo s x f
      sp := setVUpTo_sp _ _ _
      display := fun _ _ => by rw [setVUpTo_Px, advance_Px]
      bytes := fun _ => by rw [setVUpTo_mem, advance_mem]
      record := ⟨setVUpTo_halt _ _ _, setVUpTo_fkind _ _ _, setVUpTo_fop _ _ _, setVUpTo_faddr _ _ _⟩
      oracle := ⟨setVUpTo_rng _ _ _, setVUpTo_schedule _ _ _⟩ }
  pc := setVUpTo_pc _ _ _
  index := setVUpTo_I _ _ _
  timer := setVUpTo_DT _ _ _

theorem length_regsUpTo (s : State) (x : Nibble) : (regsUpTo s x).length = x.toNat + 1 := by
  have hx : x.toNat + 1 ≤ 16 := x.isLt
  rw [regsUpTo, List.length_take, Vector.length_toList, regCount, Nat.min_eq_left hx]

/-- Entry `r` of the stored registers is `V[r]`. -/
theorem regsUpTo_getD (s : State) {x r : Nibble} (h : r.toNat ≤ x.toNat) (d : Byte) :
    (regsUpTo s x).getD r.toNat d = getV s r := by
  have hr : r.toNat < (regsUpTo s x).length := by rw [length_regsUpTo]; omega
  rw [List.getD_eq_getElem _ _ hr]
  simp only [regsUpTo, getV, List.getElem_take, Vector.getElem_toList]

/-! ## The instructions when their checks pass -/

/-- `BCD` above the font and inside memory passes its check (R170). -/
theorem exec_bcd_of_fits (x : Nibble) {s : State} (hlow : 80 ≤ indexAddr s) (hend : indexAddr s + 3 ≤ 4096) :
    exec (.bcd x) s = .next (setMem (advance s) (writeRun s.mem (indexAddr s) (decimalDigits (getV s x)))) := by
  rw [exec, execBcd, (checkWrite_eq_none (by decide)).2 ⟨hlow, hend⟩, attempt_none]

/-- `STR` above the font and inside memory passes its check (R172). -/
theorem exec_str_of_fits {x : Nibble} {s : State} (hlow : 80 ≤ indexAddr s) (hend : indexAddr s + x.toNat ≤ 4095) :
    exec (.str x) s = .next (setMem (advance s) (writeRun s.mem (indexAddr s) (regsUpTo s x))) := by
  have hcheck : checkWrite (indexAddr s) (regCount x) = none :=
    (checkWrite_eq_none (Nat.succ_ne_zero _)).2 ⟨hlow, Nat.succ_le_succ hend⟩
  rw [exec, execStr, hcheck, attempt_none]

/-- `LD` inside memory passes its check (R171). -/
theorem exec_ld_of_fits {x : Nibble} {s : State} (hend : indexAddr s + x.toNat ≤ 4095) :
    exec (.ld x) s = .next (setVUpTo (advance s) x (fun k => readByte s.mem (indexAddr s + k))) := by
  have hcheck : checkRead (indexAddr s) (regCount x) = none := checkRead_eq_none.2 (.inr (Nat.succ_le_succ hend))
  rw [exec, execLd, hcheck, attempt_none]

/-! ## The obligations -/

/-- Settles O42: the stored run is the list of the three digits, and each digit fits a byte. -/
theorem bcdStoresDigits : Obligations.BcdStoresDigits := by
  intro x s hlow hend
  have hv : (getV s x).toNat < 256 := (getV s x).isLt
  have hread := readByte_writeRun_add (decimalDigits (getV s x)) s.mem (indexAddr s)
  refine ⟨_, exec_bcd_of_fits x hlow hend, ?_, ?_, ?_, storeShape_writeRun s _ (decimalDigits _), rfl, rfl⟩
  · exact (congrArg BitVec.toNat (hread 0)).trans (Nat.mod_eq_of_lt (by omega))
  · exact (congrArg BitVec.toNat (hread 1)).trans (Nat.mod_eq_of_lt (by omega))
  · exact (congrArg BitVec.toNat (hread 2)).trans (Nat.mod_eq_of_lt (by omega))

/-- Settles O43: the stored run is the list `V[0], ..., V[x]`, of length `x + 1`. -/
theorem storeWritesRegisters : Obligations.StoreWritesRegisters := by
  intro x s hlow hend
  refine ⟨_, exec_str_of_fits hlow hend, fun r hr => ?_, ?_, rfl, rfl⟩
  · rw [setMem_mem, readByte_writeRun_add, regsUpTo_getD s hr]
  · exact length_regsUpTo s x ▸ storeShape_writeRun s (indexAddr s) (regsUpTo s x)

/-- Settles O44: the block load writes the registers up to `x` and nothing else but `pc`. -/
theorem loadReadsRegisters : Obligations.LoadReadsRegisters := by
  intro x s hend
  obtain ⟨⟨-, hsp, hdisplay, hbytes, hrecord, horacle⟩, hpc, hI, hDT⟩ :=
    writesRegs_setVUpTo_advance s x fun k => readByte s.mem (indexAddr s + k)
  refine ⟨_, exec_ld_of_fits hend, fun r hr => ?_, fun r hr => ?_, hpc, hI, hsp, hDT, hdisplay, hbytes, hrecord, horacle⟩
  · rw [getV_setVUpTo, if_pos hr]
  · rw [getV_setVUpTo, if_neg (Nat.not_le.2 hr), getV_advance]

/-- Settles O47: the store leaves `I`, so the load reads the bytes the store wrote. -/
theorem storeThenLoadRestores : Obligations.StoreThenLoadRestores := by
  intro x s hlow hend
  obtain ⟨t, ht, hstored, hframe, -, -⟩ := storeWritesRegisters x s hlow hend
  refine ⟨t, ht, fun u hbytes hI => ?_⟩
  have haddr : indexAddr u = indexAddr s := by rw [indexAddr, hI, hframe.index, indexAddr]
  obtain ⟨v, hv, hloaded, -⟩ := loadReadsRegisters x u (haddr ▸ hend)
  refine ⟨v, hv, fun r hr => ?_⟩
  calc getV v r = readByte u.mem (indexAddr u + r.toNat) := hloaded r hr
    _ = readByte t.mem (indexAddr s + r.toNat) := by rw [hbytes, haddr]
    _ = getV s r := hstored r hr

end Sys2Proof.Machine

/-! # Runs of Ticks and the oversize Reset (60_exceptions.md section 8, 70_reset_and_hazards.md section 1) -/

namespace Sys2Proof.Machine

/-- Settles O49, by induction on the number of Ticks: the first takes the timer down by one, the others do the rest. -/
theorem ticksCountDownToZero : Obligations.TicksCountDownToZero := by
  intro k
  induction k with
  | zero => exact fun s => ⟨s, rfl, rfl, rfl⟩
  | succ k ih =>
    intro s
    obtain ⟨t, hrun, htimer, hframe⟩ := ih (tick s)
    refine ⟨t, hrun, ?_, ?_⟩
    · rw [htimer, tick_DT_toNat, Nat.sub_sub, Nat.add_comm 1]
    · calc t = { tick s with DT := t.DT } := hframe
        _ = { s with DT := t.DT } := by rw [tick_eq_withDT]

/-- Settles O51: an oversize image leaves the memory of the reset state, and the event carries over the model's own fields. -/
theorem resetRejectsOversizeImage : Obligations.ResetRejectsOversizeImage := by
  intro prog s hlong
  have hreset := resetWith_of_oversize hlong
  exact ⟨hreset, by rw [applyEvent, resetEvent, hreset]⟩

end Sys2Proof.Machine
